-- ==== Sys2Proof/Word.lean ====
section
/-! DEFINITION. The bit-vector types of the decode core (spec/00_scope.md R7, R8): the 32-bit input word and the
widths of its fields. Bit 0 is the least significant bit everywhere. -/

namespace Sys2Proof

/-- `WORD_W` = 32: the input word, and (`IMM_W` = 32) every delivered immediate (R7, R19, R20). -/
abbrev Word := BitVec 32

/-- `OPC_W` = 7: the only bits the registry reads, `w[6:0]` (R7, R35). -/
abbrev Opcode7 := BitVec 7

/-- `REG_IDX_W` = 5: a register index field (R7, R11). The block has no register file behind it. -/
abbrev RegIndex := BitVec 5

/-- `FUNC3_W` = 3 (R7). -/
abbrev Func3 := BitVec 3

/-- `FUNC7_W` = 7 (R7). -/
abbrev Func7 := BitVec 7

/-- One byte of the fetch collaborator's instruction stream (R25). The block itself never sees bytes (R24). -/
abbrev Byte := BitVec 8

end Sys2Proof
end

