-- ==== Sys2Proof/Config.lean ====
section
/-! DEFINITION. What is fixed around the block and not by it: the parameters of spec/00_scope.md R7 that are not data of
the machine's state. `REGISTRY` and `OpcodeId` are arguments of the decode functions (Decode.lean) and `REGISTRY` is
a field of `State`. -/

namespace Sys2Proof

/-- `FETCH_ORDER` (R7, R25): in which order a fetch collaborator assembles the word from four bytes. A parameter of a
composed model only; the block has no byte order (R24). -/
inductive FetchOrder where
  /-- The byte at the lowest address holds `w[7:0]`. The default of R25. -/
  | little
  /-- The byte at the lowest address holds `w[31:24]`. -/
  | big
deriving DecidableEq, Repr

/-- The default of `FETCH_ORDER` (R25). -/
def Config.fetchOrder : FetchOrder := .little

/-- `T_DECODE` (R7, R108, R110): the settling time after a change of `word`. OPEN in the spec, so no value is given
here and none can be proved of it. It is ONE bound for all words. -/
opaque Config.tDecode : Nat

end Sys2Proof
end

