-- ==== Sys2Proof/Syntax.lean ====
section
/-! DEFINITION. The data types of the block: the format kinds, the operation identities, the registry, the decoded value
(spec/10_state.md R17, R20; spec/40_opcode_registry.md R56, R62) and `Instr`, one constructor per row of
spec/opcode_table.json. -/

namespace Sys2Proof

/-- The format the registry associates with an operation: one of six, never none (R20, R59). -/
inductive FormatKind where
  | R | I | S | B | U | J
deriving DecidableEq, Repr

/-- The operation identities a registry of the machine may hold. The ten names are the default enumeration of R62, in
ascending order of `w[6:0]`; one name stands for a whole major opcode, and `ADDI` for every OP-IMM word (R63). The
enumeration is a parameter (R7, spec/93_implementation_defined.md U4): a further operation of another enumeration is
`other`, under a number (notes/assumptions/4.md). -/
inductive OpcodeId where
  | LOAD | MISC_MEM | ADDI | AUIPC | STORE | OP | LUI | BRANCH | JALR | JAL
  | other (number : Nat)
deriving DecidableEq, Repr

/-- The operations of an enumeration with their `opid` codes, `OPID_W` bits each: a parameter bundled with `REGISTRY`
(R7, R67, U4). Operations and codes in a list of pairs: the model's form (notes/assumptions/10.md). -/
structure OpidTable (Op : Type) where
  /-- `OPID_W`. -/
  width : Nat
  codes : List (Op × BitVec width)
deriving DecidableEq, Repr

/-- The registry: a complete table of 128 slots indexed by `w[6:0]`, each `none` or an operation with its format
(R17, R56, R57). A present entry always has a format (R59). The enumeration of operations is a parameter (R7). -/
structure Registry (Op : Type) where
  table : Vector (Option (Op × FormatKind)) 128
deriving DecidableEq, Repr

/-- The decoded value, a tagged variant with seven cases (R20). It has no identity beyond its fields (R21). A field a
case lacks does not exist (R23). -/
inductive Instruction (Op : Type) where
  | R (opcode : Op) (rd : RegIndex) (func3 : Func3) (rs1 rs2 : RegIndex) (func7 : Func7)
  | I (opcode : Op) (rd : RegIndex) (func3 : Func3) (rs1 : RegIndex) (imm : Word)
  | S (opcode : Op) (func3 : Func3) (rs1 rs2 : RegIndex) (imm : Word)
  | B (opcode : Op) (func3 : Func3) (rs1 rs2 : RegIndex) (imm : Word)
  | U (opcode : Op) (rd : RegIndex) (imm : Word)
  | J (opcode : Op) (rd : RegIndex) (imm : Word)
  | Unrecognized (raw : Word)
deriving DecidableEq, Repr

/-- A word of the opcode table, with the fields its format cuts out of it (R36 to R41). An immediate is the encoded
pattern at its natural width, before extension: 12 bits for I and S, 13 for B and 21 for J (bit 0 included, which the
encoding leaves out because it is always 0), and the upper 20 bits for U. -/
inductive Instr where
  /-- LOAD, opcode 0x03, I format (R85). -/
  | load (rd : RegIndex) (func3 : Func3) (rs1 : RegIndex) (imm : BitVec 12)
  /-- MISC_MEM, opcode 0x0F, I format (R86). -/
  | miscMem (rd : RegIndex) (func3 : Func3) (rs1 : RegIndex) (imm : BitVec 12)
  /-- ADDI (every OP-IMM word), opcode 0x13, I format (R87). -/
  | addi (rd : RegIndex) (func3 : Func3) (rs1 : RegIndex) (imm : BitVec 12)
  /-- AUIPC, opcode 0x17, U format (R88). -/
  | auipc (rd : RegIndex) (imm : BitVec 20)
  /-- STORE, opcode 0x23, S format (R89). -/
  | store (func3 : Func3) (rs1 rs2 : RegIndex) (imm : BitVec 12)
  /-- OP, opcode 0x33, R format (R90). -/
  | op (rd : RegIndex) (func3 : Func3) (rs1 rs2 : RegIndex) (func7 : Func7)
  /-- LUI, opcode 0x37, U format (R91). -/
  | lui (rd : RegIndex) (imm : BitVec 20)
  /-- BRANCH, opcode 0x63, B format (R92). -/
  | branch (func3 : Func3) (rs1 rs2 : RegIndex) (imm : BitVec 13)
  /-- JALR, opcode 0x67, I format (R93). -/
  | jalr (rd : RegIndex) (func3 : Func3) (rs1 : RegIndex) (imm : BitVec 12)
  /-- JAL, opcode 0x6F, J format (R94). -/
  | jal (rd : RegIndex) (imm : BitVec 21)
deriving DecidableEq, Repr

/-- Why a word or a byte string is not read as an `Instr`. None of these stops the machine: the block reports an
unknown opcode as an ordinary decoded value (R70, R97). -/
inductive DecodeReject where
  /-- Fewer than the four bytes of one word: the block takes one whole 32-bit word (R27, R34). -/
  | truncated (bytes : Nat)
  /-- The registry holds no entry for `w[6:0]` (R48). The word is carried whole (R98). -/
  | unknownOpcode (raw : Word)
  /-- The registry at hand holds an entry for `w[6:0]` that is not the opcode table's row for that value (another
  `REGISTRY`, R52): the word has a decoded value but is no row of the table. -/
  | otherEntry (op : OpcodeId) (fmt : FormatKind)
deriving DecidableEq, Repr

end Sys2Proof
end

