-- ==== Sys2Proof/WellFormed.lean ====
section
/-! DEFINITION. When an `Instr` is one that a word can encode. Every field of every row is a raw slice of the word
(spec/30_encoding.md R46, R50), so every value of a field is admitted; the one limit is bit 0 of a B or J offset,
which the encoding has no bit for and which is always 0 (R39, R41, R43). -/

namespace Sys2Proof

/-- The well-formedness check. No `func3`, `func7` or register value is ever refused (R50). -/
def Instr.wellFormed : Instr → Bool
  | .load _ _ _ _ => true
  | .miscMem _ _ _ _ => true
  | .addi _ _ _ _ => true
  | .auipc _ _ => true
  | .store _ _ _ _ => true
  | .op _ _ _ _ _ => true
  | .lui _ _ => true
  | .branch _ _ _ imm => !imm.getLsbD 0
  | .jalr _ _ _ _ => true
  | .jal _ imm => !imm.getLsbD 0

end Sys2Proof
end

