-- ==== Sys2Proof/Decode.lean ====
section
/-! DEFINITION. The decode pipeline of the block, stage by stage: field cuts (spec/41_format_decoder.md R72), immediate
assembly (spec/30_encoding.md R43), the sign-extension unit (R79), the six extractors (R73 to R78), the format
multiplexer (R71), the registry and its default contents (spec/40_opcode_registry.md), and `decode` itself (R69).
Then the reading of a word as a row of the opcode table (`decodeInstr`), the encoder, and the reading of bytes. -/

namespace Sys2Proof

/-! ### Field cuts (R35, R72) -/

/-- `w[6:0]`, the opcode field of every format (R35). -/
def opcodeField (w : Word) : Opcode7 := w.extractLsb 6 0

/-- `rd(w) := w[11:7]` (R72). -/
def rdField (w : Word) : RegIndex := w.extractLsb 11 7

/-- `func3(w) := w[14:12]` (R72). -/
def func3Field (w : Word) : Func3 := w.extractLsb 14 12

/-- `rs1(w) := w[19:15]` (R72). -/
def rs1Field (w : Word) : RegIndex := w.extractLsb 19 15

/-- `rs2(w) := w[24:20]` (R72). -/
def rs2Field (w : Word) : RegIndex := w.extractLsb 24 20

/-- `func7(w) := w[31:25]` (R72). -/
def func7Field (w : Word) : Func7 := w.extractLsb 31 25

/-- `w[31]`, the one source of every immediate's sign (R44). -/
def signBit (w : Word) : Bool := w.getLsbD 31

/-! ### Immediate patterns at their natural widths (R36 to R41, R43) -/

/-- I: `w[31:20]` (R37). -/
def iPattern (w : Word) : BitVec 12 := w.extractLsb 31 20

/-- S: `w[31:25] ++ w[11:7]` (R38). -/
def sPattern (w : Word) : BitVec 12 := w.extractLsb 31 25 ++ w.extractLsb 11 7

/-- B: `w[31] ++ w[7] ++ w[30:25] ++ w[11:8] ++ 0b0` (R39, R76). -/
def bPattern (w : Word) : BitVec 13 :=
  w.extractLsb 31 31 ++ w.extractLsb 7 7 ++ w.extractLsb 30 25 ++ w.extractLsb 11 8 ++ 0#1

/-- U: `w[31:12]`, the upper 20 bits of the result (R40). -/
def uPattern (w : Word) : BitVec 20 := w.extractLsb 31 12

/-- J: `w[31] ++ w[19:12] ++ w[20] ++ w[30:21] ++ 0b0` (R41, R78). -/
def jPattern (w : Word) : BitVec 21 :=
  w.extractLsb 31 31 ++ w.extractLsb 19 12 ++ w.extractLsb 20 20 ++ w.extractLsb 30 21 ++ 0#1

/-! ### Widening to 32 bits (R79, R77) -/

/-- The sign-extension unit as the hardware builds it (R79, R80): `sign` is fanned out over the bits above the pattern. -/
def signUnit {k : Nat} (sign : Bool) (v : BitVec k) : Word :=
  ((if sign then BitVec.allOnes (32 - k) else 0#(32 - k)) ++ v).setWidth 32

/-- The U immediate: the field is the upper 20 bits, the lower 12 are 0, no extension (R77). -/
def upperImm (v : BitVec 20) : Word := v ++ 0#12

/-- The I immediate of a word (R43, R74). -/
def iImm (w : Word) : Word := signUnit (signBit w) (iPattern w)

/-- The S immediate of a word (R43, R75). -/
def sImm (w : Word) : Word := signUnit (signBit w) (sPattern w)

/-- The B immediate of a word (R43, R76). -/
def bImm (w : Word) : Word := signUnit (signBit w) (bPattern w)

/-- The U immediate of a word (R43, R77). -/
def uImm (w : Word) : Word := upperImm (uPattern w)

/-- The J immediate of a word (R43, R78). -/
def jImm (w : Word) : Word := signUnit (signBit w) (jPattern w)

/-! ### The six extractors and the format multiplexer, for any enumeration of operations (R71, R73 to R78) -/

/-- R73. -/
def extractR {Op : Type} (op : Op) (w : Word) : Instruction Op :=
  .R op (rdField w) (func3Field w) (rs1Field w) (rs2Field w) (func7Field w)

/-- R74. -/
def extractI {Op : Type} (op : Op) (w : Word) : Instruction Op :=
  .I op (rdField w) (func3Field w) (rs1Field w) (iImm w)

/-- R75. -/
def extractS {Op : Type} (op : Op) (w : Word) : Instruction Op :=
  .S op (func3Field w) (rs1Field w) (rs2Field w) (sImm w)

/-- R76. -/
def extractB {Op : Type} (op : Op) (w : Word) : Instruction Op :=
  .B op (func3Field w) (rs1Field w) (rs2Field w) (bImm w)

/-- R77. -/
def extractU {Op : Type} (op : Op) (w : Word) : Instruction Op :=
  .U op (rdField w) (uImm w)

/-- R78. -/
def extractJ {Op : Type} (op : Op) (w : Word) : Instruction Op :=
  .J op (rdField w) (jImm w)

/-- The format multiplexer: the format alone chooses the extractor (R71). -/
def extract {Op : Type} (fmt : FormatKind) (op : Op) (w : Word) : Instruction Op :=
  match fmt with
  | .R => extractR op w
  | .I => extractI op w
  | .S => extractS op w
  | .B => extractB op w
  | .U => extractU op w
  | .J => extractJ op w

/-! ### The registry (spec/40_opcode_registry.md) -/

/-- `classify(bits7) = REGISTRY(bits7)` (R56): total, `none` for an unassigned slot (R57). -/
def classify {Op : Type} (reg : Registry Op) (bits7 : Opcode7) : Option (Op × FormatKind) :=
  reg.table[bits7.toNat]'(bits7.isLt)

/-- A registry written as its assigned rows; every other slot is `none`. -/
def Registry.ofRows {Op : Type} (rows : List (Opcode7 × Op × FormatKind)) : Registry Op :=
  { table := Vector.ofFn fun i => rows.lookup (BitVec.ofNat 7 i) }

/-- The assigned entries of a registry, in slot order. -/
def Registry.entries {Op : Type} (reg : Registry Op) : List (Op × FormatKind) :=
  reg.table.toList.filterMap id

/-- `wf(REGISTRY)` of R60 as a check: one operation never has two formats. -/
def Registry.wf {Op : Type} [DecidableEq Op] (reg : Registry Op) : Bool :=
  reg.entries.all fun e => reg.entries.all fun e' => decide (e.1 = e'.1 → e.2 = e'.2)

/-- The ten rows of R62. -/
def rowsRV32I : List (Opcode7 × OpcodeId × FormatKind) :=
  [ (0b0000011#7, .LOAD, .I), (0b0001111#7, .MISC_MEM, .I), (0b0010011#7, .ADDI, .I),
    (0b0010111#7, .AUIPC, .U), (0b0100011#7, .STORE, .S), (0b0110011#7, .OP, .R),
    (0b0110111#7, .LUI, .U), (0b1100011#7, .BRANCH, .B), (0b1100111#7, .JALR, .I),
    (0b1101111#7, .JAL, .J) ]

/-- `REGISTRY_RV32I`, the default registry (R62). -/
def registryRV32I : Registry OpcodeId := .ofRows rowsRV32I

/-- `REGISTRY_DOC`, the alternative registry with the source's one named operation (R64). -/
def registryDoc : Registry OpcodeId := .ofRows [(0b0010011#7, .ADDI, .I)]

/-- The `opid` code of an operation, where the enumeration has the operation (R22, R67). -/
def OpidTable.code? {Op : Type} [DecidableEq Op] (t : OpidTable Op) (op : Op) : Option (BitVec t.width) :=
  t.codes.lookup op

/-- The operation of an `opid` code, where the code is one of the enumeration's (R22, R67). -/
def OpidTable.op? {Op : Type} (t : OpidTable Op) (code : BitVec t.width) : Option Op :=
  (t.codes.find? fun p => p.2 == code).map Prod.fst

/-- The codes are an encoding: no operation has two codes, and no code stands for two operations. -/
def OpidTable.wf {Op : Type} [DecidableEq Op] (t : OpidTable Op) : Bool :=
  decide ((t.codes.map Prod.fst).Nodup ∧ (t.codes.map Prod.snd).Nodup)

/-- The enumeration holds every operation of the registry: the registry ranges over it (R7). -/
def OpidTable.covers {Op : Type} [DecidableEq Op] (t : OpidTable Op) (reg : Registry Op) : Bool :=
  reg.entries.all fun e => (t.code? e.1).isSome

/-- The default enumeration and its codes: `OPID_W` = 4, codes 0 to 9, ascending in `w[6:0]` (R62, R67). -/
def opidsRV32I : OpidTable OpcodeId :=
  { width := 4
    codes := [ (.LOAD, 0), (.MISC_MEM, 1), (.ADDI, 2), (.AUIPC, 3), (.STORE, 4), (.OP, 5), (.LUI, 6), (.BRANCH, 7),
      (.JALR, 8), (.JAL, 9) ] }

/-- The code of a format, in the registry table and on the `kind` port (R22, R67). -/
def FormatKind.code : FormatKind → BitVec 3
  | .R => 0
  | .I => 1
  | .S => 2
  | .B => 3
  | .U => 4
  | .J => 5

/-! ### decode (R68, R69) -/

/-- `decode` in full (R69): the registry lookup first; an unknown opcode gives the whole word back and no field is
extracted (R70); otherwise the extractor of the entry's format. Total on all words, for every registry (R68). -/
def decode {Op : Type} (reg : Registry Op) (w : Word) : Instruction Op :=
  match classify reg (opcodeField w) with
  | none => .Unrecognized w
  | some (op, fmt) => extract fmt op w

/-- The case of a decoded value: its format, `none` for Unrecognized (R20). -/
def Instruction.format {Op : Type} : Instruction Op → Option FormatKind
  | .R _ _ _ _ _ _ => some .R
  | .I _ _ _ _ _ => some .I
  | .S _ _ _ _ _ => some .S
  | .B _ _ _ _ _ => some .B
  | .U _ _ _ => some .U
  | .J _ _ _ => some .J
  | .Unrecognized _ => none

/-- The operation a decoded value names, where it has one (R20, R23). -/
def Instruction.opcode? {Op : Type} : Instruction Op → Option Op
  | .R op _ _ _ _ _ => some op
  | .I op _ _ _ _ => some op
  | .S op _ _ _ _ => some op
  | .B op _ _ _ _ => some op
  | .U op _ _ => some op
  | .J op _ _ => some op
  | .Unrecognized _ => none

/-- The `rd` field, where the case has one (R23). -/
def Instruction.rd? {Op : Type} : Instruction Op → Option RegIndex
  | .R _ rd _ _ _ _ => some rd
  | .I _ rd _ _ _ => some rd
  | .S _ _ _ _ _ => none
  | .B _ _ _ _ _ => none
  | .U _ rd _ => some rd
  | .J _ rd _ => some rd
  | .Unrecognized _ => none

/-- The `func3` field, where the case has one (R23). -/
def Instruction.func3? {Op : Type} : Instruction Op → Option Func3
  | .R _ _ f3 _ _ _ => some f3
  | .I _ _ f3 _ _ => some f3
  | .S _ f3 _ _ _ => some f3
  | .B _ f3 _ _ _ => some f3
  | .U _ _ _ => none
  | .J _ _ _ => none
  | .Unrecognized _ => none

/-- The `rs1` field, where the case has one (R23). -/
def Instruction.rs1? {Op : Type} : Instruction Op → Option RegIndex
  | .R _ _ _ rs1 _ _ => some rs1
  | .I _ _ _ rs1 _ => some rs1
  | .S _ _ rs1 _ _ => some rs1
  | .B _ _ rs1 _ _ => some rs1
  | .U _ _ _ => none
  | .J _ _ _ => none
  | .Unrecognized _ => none

/-- The `rs2` field, where the case has one (R23). -/
def Instruction.rs2? {Op : Type} : Instruction Op → Option RegIndex
  | .R _ _ _ _ rs2 _ => some rs2
  | .I _ _ _ _ _ => none
  | .S _ _ _ rs2 _ => some rs2
  | .B _ _ _ rs2 _ => some rs2
  | .U _ _ _ => none
  | .J _ _ _ => none
  | .Unrecognized _ => none

/-- The `func7` field, where the case has one (R23). -/
def Instruction.func7? {Op : Type} : Instruction Op → Option Func7
  | .R _ _ _ _ _ f7 => some f7
  | .I _ _ _ _ _ => none
  | .S _ _ _ _ _ => none
  | .B _ _ _ _ _ => none
  | .U _ _ _ => none
  | .J _ _ _ => none
  | .Unrecognized _ => none

/-- The `imm` field, where the case has one (R23). -/
def Instruction.imm? {Op : Type} : Instruction Op → Option Word
  | .R _ _ _ _ _ _ => none
  | .I _ _ _ _ imm => some imm
  | .S _ _ _ _ imm => some imm
  | .B _ _ _ _ imm => some imm
  | .U _ _ imm => some imm
  | .J _ _ imm => some imm
  | .Unrecognized _ => none

/-! ### Reading a word as a row of the opcode table -/

/-- The row of an operation, its fields cut out of the word (R85 to R94); none for an operation that is no row of the
opcode table. -/
def instrOf (op : OpcodeId) (w : Word) : Option Instr :=
  match op with
  | .LOAD => some (.load (rdField w) (func3Field w) (rs1Field w) (iPattern w))
  | .MISC_MEM => some (.miscMem (rdField w) (func3Field w) (rs1Field w) (iPattern w))
  | .ADDI => some (.addi (rdField w) (func3Field w) (rs1Field w) (iPattern w))
  | .AUIPC => some (.auipc (rdField w) (uPattern w))
  | .STORE => some (.store (func3Field w) (rs1Field w) (rs2Field w) (sPattern w))
  | .OP => some (.op (rdField w) (func3Field w) (rs1Field w) (rs2Field w) (func7Field w))
  | .LUI => some (.lui (rdField w) (uPattern w))
  | .BRANCH => some (.branch (func3Field w) (rs1Field w) (rs2Field w) (bPattern w))
  | .JALR => some (.jalr (rdField w) (func3Field w) (rs1Field w) (iPattern w))
  | .JAL => some (.jal (rdField w) (jPattern w))
  | .other _ => none

/-- The instruction a word is under a registry, total and rejecting by name. A word is a row of the opcode table when
the registry holds, for its opcode field, the very entry that R62's table holds. -/
def decodeInstr (reg : Registry OpcodeId) (w : Word) : Except DecodeReject Instr :=
  match classify reg (opcodeField w) with
  | none => .error (.unknownOpcode w)
  | some (op, fmt) =>
    if classify registryRV32I (opcodeField w) = some (op, fmt) then
      match instrOf op w with
      | some i => .ok i
      | none => .error (.otherEntry op fmt)
    else .error (.otherEntry op fmt)

/-! ### The encoder: the tables of R36 to R41 read from high bits to low, with the opcode values of R62 -/

/-- R36, under opcode `opc`. -/
def encodeR (opc : Opcode7) (rd : RegIndex) (f3 : Func3) (rs1 rs2 : RegIndex) (f7 : Func7) : Word :=
  f7 ++ rs2 ++ rs1 ++ f3 ++ rd ++ opc

/-- R37. -/
def encodeI (opc : Opcode7) (rd : RegIndex) (f3 : Func3) (rs1 : RegIndex) (imm : BitVec 12) : Word :=
  imm ++ rs1 ++ f3 ++ rd ++ opc

/-- R38. -/
def encodeS (opc : Opcode7) (f3 : Func3) (rs1 rs2 : RegIndex) (imm : BitVec 12) : Word :=
  imm.extractLsb 11 5 ++ rs2 ++ rs1 ++ f3 ++ imm.extractLsb 4 0 ++ opc

/-- R39. -/
def encodeB (opc : Opcode7) (f3 : Func3) (rs1 rs2 : RegIndex) (imm : BitVec 13) : Word :=
  imm.extractLsb 12 12 ++ imm.extractLsb 10 5 ++ rs2 ++ rs1 ++ f3 ++ imm.extractLsb 4 1 ++ imm.extractLsb 11 11 ++ opc

/-- R40. -/
def encodeU (opc : Opcode7) (rd : RegIndex) (imm : BitVec 20) : Word :=
  imm ++ rd ++ opc

/-- R41. -/
def encodeJ (opc : Opcode7) (rd : RegIndex) (imm : BitVec 21) : Word :=
  imm.extractLsb 20 20 ++ imm.extractLsb 10 1 ++ imm.extractLsb 11 11 ++ imm.extractLsb 19 12 ++ rd ++ opc

/-- The word of an instruction. The block has no encoder (spec/00_scope.md R5); this one states that decoding drops
no bit. -/
def encode : Instr → Word
  | .load rd f3 rs1 imm => encodeI 0b0000011#7 rd f3 rs1 imm
  | .miscMem rd f3 rs1 imm => encodeI 0b0001111#7 rd f3 rs1 imm
  | .addi rd f3 rs1 imm => encodeI 0b0010011#7 rd f3 rs1 imm
  | .auipc rd imm => encodeU 0b0010111#7 rd imm
  | .store f3 rs1 rs2 imm => encodeS 0b0100011#7 f3 rs1 rs2 imm
  | .op rd f3 rs1 rs2 f7 => encodeR 0b0110011#7 rd f3 rs1 rs2 f7
  | .lui rd imm => encodeU 0b0110111#7 rd imm
  | .branch f3 rs1 rs2 imm => encodeB 0b1100011#7 f3 rs1 rs2 imm
  | .jalr rd f3 rs1 imm => encodeI 0b1100111#7 rd f3 rs1 imm
  | .jal rd imm => encodeJ 0b1101111#7 rd imm

/-- The word that a decoded value came from, rebuilt from the value and the 7-bit opcode of its entry
(spec/95_test_vectors.md P-9): the fields of each format cover all 32 bits (R42). -/
def rebuild {Op : Type} (opc : Opcode7) : Instruction Op → Word
  | .R _ rd f3 rs1 rs2 f7 => encodeR opc rd f3 rs1 rs2 f7
  | .I _ rd f3 rs1 imm => encodeI opc rd f3 rs1 (imm.setWidth 12)
  | .S _ f3 rs1 rs2 imm => encodeS opc f3 rs1 rs2 (imm.setWidth 12)
  | .B _ f3 rs1 rs2 imm => encodeB opc f3 rs1 rs2 (imm.setWidth 13)
  | .U _ rd imm => encodeU opc rd (imm.extractLsb 31 12)
  | .J _ rd imm => encodeJ opc rd (imm.setWidth 21)
  | .Unrecognized raw => raw

/-! ### Bytes: the fetch collaborator's side (R25) -/

/-- The word assembled from the bytes at addresses `a`, `a+1`, `a+2`, `a+3` (R25). -/
def assembleWord (order : FetchOrder) (b0 b1 b2 b3 : Byte) : Word :=
  match order with
  | .little => b3 ++ b2 ++ b1 ++ b0
  | .big => b0 ++ b1 ++ b2 ++ b3

/-- The four bytes of a word, lowest address first. -/
def wordBytes (order : FetchOrder) (w : Word) : List Byte :=
  match order with
  | .little => [w.extractLsb 7 0, w.extractLsb 15 8, w.extractLsb 23 16, w.extractLsb 31 24]
  | .big => [w.extractLsb 31 24, w.extractLsb 23 16, w.extractLsb 15 8, w.extractLsb 7 0]

/-- Decoding from bytes, total: exactly one 32-bit word is taken, never a 16-bit parcel and never a second word
(R27, R34, R53); the rest of the bytes is given back. -/
def decodeBytes (order : FetchOrder) (reg : Registry OpcodeId) : List Byte → Except DecodeReject (Instr × List Byte)
  | b0 :: b1 :: b2 :: b3 :: rest =>
    match decodeInstr reg (assembleWord order b0 b1 b2 b3) with
    | .ok i => .ok (i, rest)
    | .error e => .error e
  | short => .error (.truncated short.length)

/-- The word of a table row: its low `nbits` bits are those of `w`, every bit above is 0. -/
def tableWord (nbits w : Nat) : Word := BitVec.ofNat 32 (w % 2 ^ nbits)

/-- The instruction the decoder reads, under the default registry, from a word given as the opcode table numbers it. -/
def decodeTableWord (nbits w : Nat) : Option Instr :=
  match decodeBytes Config.fetchOrder registryRV32I (wordBytes Config.fetchOrder (tableWord nbits w)) with
  | .ok (i, _) => some i
  | .error _ => none

end Sys2Proof
end

