-- ==== Sys2Proof/Machine/State.lean ====
section
/-! DEFINITION. The state of the machine as plain data, its reset, and the reasons a step can stop. The block holds no
mutable state (spec/10_state.md R10 to R18); what stands here is its constant registry table (R17) with the codes of its
operations (R67), its input port (R19) and its output (R20, R22), a function of the two once settled (R106, R108). -/

namespace Sys2Proof.Machine

/-- The block together with the values on its ports. There is no register file, program counter, flag, control register,
memory or hidden state (R11 to R16, R18). -/
structure State where
  /-- The constant registry table of 128 slots (R17), the parameter `REGISTRY` of R7. Nothing writes it (R14, R61). -/
  registry : Registry OpcodeId
  /-- The enumeration the registry ranges over, with `OPID_W` and the `opid` codes: the parameter that is bundled with
  `REGISTRY` (R7, R67, spec/93_implementation_defined.md U4). As constant as the registry; only the ports and the
  hardware table carry codes, `decode` reads none. -/
  opids : OpidTable OpcodeId
  /-- The input port `word` (R19). Every value is a legal input. -/
  word : Word
  /-- The output: the decoded value (R20) once the outputs have settled on the present `word`; `none` while they have
  not settled since `word` last changed, when they are unspecified (R108). -/
  out : Option (Instruction OpcodeId)
deriving DecidableEq, Repr

/-- The block has no faults: "The block raises no exception, takes no trap and never stops" (spec/60_exceptions.md R97;
spec/93_implementation_defined.md: "Nothing in the block is `fault`"). So this type has no constructor: nothing raises
a fault. -/
inductive Fault where
deriving DecidableEq, Repr

/-- Why the model gives a step no meaning. -/
inductive Refusal where
  /-- An instruction that has no meaning yet, rejected by name in an arm of `exec`. Safe. No arm raises it now. -/
  | notModelled (mnemonic : String)
  /-- Raised by `step`, never by an instruction: the state's `REGISTRY` gives one operation two formats, and "A model
  refuses a `REGISTRY` for which `wf` is false" (R60, spec/93_implementation_defined.md U3). Safe. -/
  | registryIllFormed
deriving DecidableEq, Repr

/-- Right after power-up: the registry table holds its build-time contents (R62, R106), the codes are the
default registry's (R62, R67). The spec has no reset input, and
no value for the input port; 0 is a DESIGN CHOICE (notes/assumptions/1.md, unsafe). The outputs have "no reset value of
their own": they are `decode` of the present word (R106). -/
def State.reset : State :=
  { registry := registryRV32I
    opids := opidsRV32I
    word := 0#32
    out := some (decode registryRV32I 0#32) }

end Sys2Proof.Machine
end

