-- ==== Sys2Proof/Machine/Ops.lean ====
section
/-! DEFINITION. The operations shared by every meaning: presenting a word on the input port, delivering a decoded value,
and reporting an unknown opcode. The block takes no exception and returns from none (spec/60_exceptions.md R97, R102):
its one report, `Unrecognized`, is an ordinary delivered value, and that report is the nearest thing it has to taking
an exception. Memory and registers do not exist in the block (R11, R16). -/

namespace Sys2Proof.Machine

/-- The fetch collaborator presents a word on the input port (R19). If that CHANGES the port, the outputs are unspecified
until they settle (R108); if the port holds that word already, nothing changes and the outputs stay as they are
(R106). -/
def State.present (w : Word) (s : State) : State :=
  if w = s.word then s else { s with word := w, out := none }

/-- The outputs settle on a decoded value. Nothing else changes: the block saves nothing, remembers nothing and writes no
table (R18, R61, R84). -/
def State.deliver (v : Instruction OpcodeId) (s : State) : State :=
  { s with out := some v }

/-- The report of an unknown opcode: the whole present word, no address and no cause code (R70, R98). It stops
nothing (R97). -/
def State.reportUnrecognized (s : State) : State :=
  s.deliver (.Unrecognized s.word)

/-- What the outputs are once the present word has been stable for a time `t` (R108): at `T_DECODE` or later the decoded
value, before that whatever they were. -/
def State.elapse (t : Nat) (s : State) : State :=
  if Config.tDecode ≤ t then s.deliver (decode s.registry s.word) else s

end Sys2Proof.Machine
end

