-- ==== Sys2Proof/Machine/Operands.lean ====
section
/-! DEFINITION. The operand forms as the block delivers them (spec/30_encoding.md R43, R46). Register, `func3` and `func7`
operands are raw fields and need no operation; an immediate operand is the 32-bit value of its pattern. -/

namespace Sys2Proof.Machine

/-- `sext_32(v)` of R9: bits above the pattern equal its top bit. -/
def sext32 {k : Nat} (v : BitVec k) : Word := v.signExtend 32

/-- The I immediate operand (R43, R74). It is not split further, shift encodings included (R46, R87). -/
def iOperand (imm : BitVec 12) : Word := sext32 imm

/-- The S immediate operand (R43, R75). -/
def sOperand (imm : BitVec 12) : Word := sext32 imm

/-- The B immediate operand, an even offset and no target (R12, R43, R76). -/
def bOperand (imm : BitVec 13) : Word := sext32 imm

/-- The U immediate operand, `imm ++ 0x000`, not extended (R43, R77). -/
def uOperand (imm : BitVec 20) : Word := imm ++ 0#12

/-- The J immediate operand, an even offset and no target (R12, R43, R78). -/
def jOperand (imm : BitVec 21) : Word := sext32 imm

end Sys2Proof.Machine
end

