-- ==== Sys2Proof/Machine/BFormat.lean ====
section
/-! DEFINITION. The meaning of the B-format row: BRANCH. -/

namespace Sys2Proof.Machine

/-- BRANCH (R92). The offset is delivered; no target is computed and no alignment checked (R12, R26). -/
def execBranch (func3 : Func3) (rs1 rs2 : RegIndex) (imm : BitVec 13) (s : State) :
    Host.Outcome State Fault Refusal :=
  .next (s.deliver (.B .BRANCH func3 rs1 rs2 (bOperand imm)))

end Sys2Proof.Machine
end

