-- ==== Sys2Proof/Machine/IFormat.lean ====
section
/-! DEFINITION. The meanings of the I-format rows: LOAD, MISC_MEM, ADDI (OP-IMM) and JALR. The effect of a row is the
decoded value it delivers; what a consumer does with it is outside the block (spec/00_scope.md R5). -/

namespace Sys2Proof.Machine

/-- LOAD (R85). No address is computed and `func3` is not interpreted. -/
def execLoad (rd : RegIndex) (func3 : Func3) (rs1 : RegIndex) (imm : BitVec 12) (s : State) :
    Host.Outcome State Fault Refusal :=
  .next (s.deliver (.I .LOAD rd func3 rs1 (iOperand imm)))

/-- MISC_MEM (R86). The block orders nothing (R32); the fence fields stay inside the immediate. -/
def execMiscMem (rd : RegIndex) (func3 : Func3) (rs1 : RegIndex) (imm : BitVec 12) (s : State) :
    Host.Outcome State Fault Refusal :=
  .next (s.deliver (.I .MISC_MEM rd func3 rs1 (iOperand imm)))

/-- ADDI, which stands for every OP-IMM word whatever its `func3` (R63, R87). -/
def execAddi (rd : RegIndex) (func3 : Func3) (rs1 : RegIndex) (imm : BitVec 12) (s : State) :
    Host.Outcome State Fault Refusal :=
  .next (s.deliver (.I .ADDI rd func3 rs1 (iOperand imm)))

/-- JALR (R93). The immediate may be odd; no target is computed. -/
def execJalr (rd : RegIndex) (func3 : Func3) (rs1 : RegIndex) (imm : BitVec 12) (s : State) :
    Host.Outcome State Fault Refusal :=
  .next (s.deliver (.I .JALR rd func3 rs1 (iOperand imm)))

end Sys2Proof.Machine
end

