-- ==== Sys2Proof/Machine/JFormat.lean ====
section
/-! DEFINITION. The meaning of the J-format row: JAL. -/

namespace Sys2Proof.Machine

/-- JAL (R94). The offset is delivered; nothing is linked and no target is computed (R12). -/
def execJal (rd : RegIndex) (imm : BitVec 21) (s : State) : Host.Outcome State Fault Refusal :=
  .next (s.deliver (.J .JAL rd (jOperand imm)))

end Sys2Proof.Machine
end

