-- ==== Sys2Proof/Machine/RFormat.lean ====
section
/-! DEFINITION. The meaning of the R-format row: OP. -/

namespace Sys2Proof.Machine

/-- OP (R90). `func3` and `func7` are delivered raw, reserved values included (R50). -/
def execOp (rd : RegIndex) (func3 : Func3) (rs1 rs2 : RegIndex) (func7 : Func7) (s : State) :
    Host.Outcome State Fault Refusal :=
  .next (s.deliver (.R .OP rd func3 rs1 rs2 func7))

end Sys2Proof.Machine
end

