-- ==== Sys2Proof/Machine/SFormat.lean ====
section
/-! DEFINITION. The meaning of the S-format row: STORE. -/

namespace Sys2Proof.Machine

/-- STORE (R89). There is no `rd`; nothing is stored, since the block has no memory (R16). -/
def execStore (func3 : Func3) (rs1 rs2 : RegIndex) (imm : BitVec 12) (s : State) :
    Host.Outcome State Fault Refusal :=
  .next (s.deliver (.S .STORE func3 rs1 rs2 (sOperand imm)))

end Sys2Proof.Machine
end

