-- ==== Sys2Proof/Machine/UFormat.lean ====
section
/-! DEFINITION. The meanings of the U-format rows: AUIPC and LUI. -/

namespace Sys2Proof.Machine

/-- AUIPC (R88). Nothing is added to any address (R12). -/
def execAuipc (rd : RegIndex) (imm : BitVec 20) (s : State) : Host.Outcome State Fault Refusal :=
  .next (s.deliver (.U .AUIPC rd (uOperand imm)))

/-- LUI (R91). -/
def execLui (rd : RegIndex) (imm : BitVec 20) (s : State) : Host.Outcome State Fault Refusal :=
  .next (s.deliver (.U .LUI rd (uOperand imm)))

end Sys2Proof.Machine
end

