-- ==== Sys2Proof/Machine/Dispatch.lean ====
section
/-! DEFINITION. One arm per row of the opcode table, in the table's order. -/

namespace Sys2Proof.Machine

def exec (i : Instr) (s : State) : Host.Outcome State Fault Refusal :=
  match i with
  | .load rd func3 rs1 imm => Sys2Proof.Machine.execLoad rd func3 rs1 imm s
  | .miscMem rd func3 rs1 imm => Sys2Proof.Machine.execMiscMem rd func3 rs1 imm s
  | .addi rd func3 rs1 imm => Sys2Proof.Machine.execAddi rd func3 rs1 imm s
  | .auipc rd imm => Sys2Proof.Machine.execAuipc rd imm s
  | .store func3 rs1 rs2 imm => Sys2Proof.Machine.execStore func3 rs1 rs2 imm s
  | .op rd func3 rs1 rs2 func7 => Sys2Proof.Machine.execOp rd func3 rs1 rs2 func7 s
  | .lui rd imm => Sys2Proof.Machine.execLui rd imm s
  | .branch func3 rs1 rs2 imm => Sys2Proof.Machine.execBranch func3 rs1 rs2 imm s
  | .jalr rd func3 rs1 imm => Sys2Proof.Machine.execJalr rd func3 rs1 imm s
  | .jal rd imm => Sys2Proof.Machine.execJal rd imm s

end Sys2Proof.Machine
end

