-- ==== Sys2Proof/Machine/Step.lean ====
section
/-! DEFINITION. One step: one decode of the word on the input port. A model without time reads the settled value
directly (spec/70_reset_and_hazards.md R108), so a step ends with the outputs settled. -/

namespace Sys2Proof.Machine

/-- One decode. A registry that gives one operation two formats is refused (R60). Otherwise the registry lookup comes
first (R100): an unknown opcode is reported as a value and stops nothing (R70, R97); a row of the opcode table runs
its meaning; and an entry that only another `REGISTRY` holds delivers its format's record (R52, R71). The decoder of a
whole word never answers `truncated` (lemma `decodeInstr_error`). -/
def step (s : State) : Host.Outcome State Fault Refusal :=
  if s.registry.wf then
    match decodeInstr s.registry s.word with
    | .ok i => exec i s
    | .error (.otherEntry op fmt) => .next (s.deliver (extract fmt op s.word))
    | .error (.unknownOpcode _) => .next s.reportUnrecognized
    | .error (.truncated _) => .next s.reportUnrecognized
  else .refused .registryIllFormed

/-- The word of a table row presented on the input port, so that the next step decodes it (notes/assumptions/3.md).
Nothing else changes but that the outputs are not settled on the word yet where it is a new one (R108). -/
def State.withFetchWord (s : State) (nbits w : Nat) : State :=
  s.present (tableWord nbits w)

end Sys2Proof.Machine
end

