-- ==== Sys2Proof/Machine/Fetch.lean ====
section
/-! DEFINITION. A fetch collaborator in front of the block (spec/20_memory.md R25), for composed models. The memory is the
collaborator's and an argument here; the block has none (R16). No alignment is checked (R26). -/

namespace Sys2Proof.Machine

/-- `MemRead(a, 1)`: the byte at address `a`, `none` where the collaborator's memory lists none. -/
def memByte (mem : List Host.Cell) (a : Nat) : Option Byte := mem.lookup a

/-- The word fetched from byte address `a` (R25); `none` where one of its four bytes is not there. -/
def fetchWord (order : FetchOrder) (mem : List Host.Cell) (a : Nat) : Option Word :=
  match memByte mem a, memByte mem (a + 1), memByte mem (a + 2), memByte mem (a + 3) with
  | some b0, some b1, some b2, some b3 => some (assembleWord order b0 b1 b2 b3)
  | _, _, _, _ => none

/-- The collaborator fetches from address `a` and presents the word; the block is never told the address (R12). A fetch
that finds no word presents nothing. -/
def State.fetchFrom (order : FetchOrder) (mem : List Host.Cell) (a : Nat) (s : State) : State :=
  match fetchWord order mem a with
  | some w => s.present w
  | none => s

end Sys2Proof.Machine
end

