-- ==== Sys2Proof/Machine/Rom.lean ====
section
/-! DEFINITION. The registry as the hardware table of spec/40_opcode_registry.md R67: 128 rows, each a present bit, an
`opid` of `OPID_W` bits and a 3-bit format code. `OPID_W` and the codes are those of the enumeration at hand, an
`OpidTable` (R7, spec/93_implementation_defined.md U4); the default's are `opidsRV32I`. -/

namespace Sys2Proof.Machine

/-- One row of the table (R67). -/
structure RomRow (opidW : Nat) where
  present : Bool
  opid : BitVec opidW
  format : BitVec 3
deriving DecidableEq, Repr

/-- The read-only table (R67). -/
structure Rom (opidW : Nat) where
  rows : Vector (RomRow opidW) 128
deriving DecidableEq, Repr

/-- Why a present row is outside the spec. -/
inductive RomRefusal where
  /-- A code of no operation is never driven: under the default, codes 10 to 15 (R67, spec/93_implementation_defined.md
  U5). Safe. -/
  | opidNeverDriven (code : Nat)
  /-- A present row with format code 6 or 7: the entry without a format that R59 rules out (U6). Safe. -/
  | formatNeverDriven (code : BitVec 3)
deriving DecidableEq, Repr

/-- The format of a format code (R22, R67). -/
def formatOf (code : BitVec 3) : Option FormatKind :=
  [FormatKind.R, .I, .S, .B, .U, .J][code.toNat]?

/-- What a row says under the codes `t` (R67): a row whose present bit is 0 is `none` and its other bits are ignored. -/
def RomRow.read {Op : Type} (t : OpidTable Op) (r : RomRow t.width) : Except RomRefusal (Option (Op × FormatKind)) :=
  if r.present then
    match t.op? r.opid, formatOf r.format with
    | some op, some fmt => .ok (some (op, fmt))
    | none, _ => .error (.opidNeverDriven r.opid.toNat)
    | some _, none => .error (.formatNeverDriven r.format)
  else .ok none

/-- The row of a registry slot under the codes `t`. The bits that no rule gives are `junk`: those an absent row holds
beside its present bit, and the `opid` of an operation outside the enumeration, which no registry over the enumeration
has (notes/assumptions/10.md). -/
def RomRow.ofEntry {Op : Type} [DecidableEq Op] (t : OpidTable Op) (junk : BitVec t.width × BitVec 3) :
    Option (Op × FormatKind) → RomRow t.width
  | some (op, fmt) => { present := true, opid := (t.code? op).getD junk.1, format := fmt.code }
  | none => { present := false, opid := junk.1, format := junk.2 }

/-- The table of a registry, with the ignored bits of its absent rows as `junk` gives them slot by slot. -/
def Rom.ofRegistry {Op : Type} [DecidableEq Op] (t : OpidTable Op) (junk : Vector (BitVec t.width × BitVec 3) 128)
    (reg : Registry Op) : Rom t.width :=
  { rows := Vector.ofFn fun i => RomRow.ofEntry t junk[i] reg.table[i] }

/-- The table lookup, indexed by `w[6:0]` (R67). -/
def Rom.lookup {Op : Type} (t : OpidTable Op) (rom : Rom t.width) (bits7 : Opcode7) :
    Except RomRefusal (Option (Op × FormatKind)) :=
  (rom.rows[bits7.toNat]'(bits7.isLt)).read t

end Sys2Proof.Machine
end

