-- ==== Sys2Proof/Machine/Ports.lean ====
section
/-! DEFINITION. The port-level rendering of the decoded value (spec/10_state.md R22, R23): how a value drives the nine
output ports, how a consumer reads them back, and the block as multiplexers over all the extractors' outputs (R71, R80).
The value on a port whose field the case lacks is unspecified (R23): it is an ARGUMENT here, never chosen, so a claim
about ports holds for every value of it. -/

namespace Sys2Proof.Machine

/-- The output ports (R22), `opid` of `OPID_W` bits. -/
structure Ports (opidW : Nat) where
  kind : BitVec 3
  opid : BitVec opidW
  rd : RegIndex
  func3 : Func3
  rs1 : RegIndex
  rs2 : RegIndex
  func7 : Func7
  imm : Word
  raw : Word
deriving DecidableEq, Repr

/-- The `kind` code of a decoded value: its format's code, or 7 for Unrecognized; 6 is never driven (R22). -/
def kindCode {Op : Type} (v : Instruction Op) : BitVec 3 :=
  match v.format with
  | some fmt => fmt.code
  | none => 7

/-- The ports while they carry value `v` on input `word`, the operation under its code in `t`: a field the case has is
driven, every other port carries what `unspecified` has there, and `raw` always equals `word` (R22, R23). An operation
outside the enumeration `t` has no code, so `opid` is unspecified there too (notes/assumptions/10.md). -/
def Ports.drive {Op : Type} [DecidableEq Op] (t : OpidTable Op) (unspecified : Ports t.width) (word : Word)
    (v : Instruction Op) : Ports t.width :=
  { kind := kindCode v
    opid := (v.opcode?.bind t.code?).getD unspecified.opid
    rd := v.rd?.getD unspecified.rd
    func3 := v.func3?.getD unspecified.func3
    rs1 := v.rs1?.getD unspecified.rs1
    rs2 := v.rs2?.getD unspecified.rs2
    func7 := v.func7?.getD unspecified.func7
    imm := v.imm?.getD unspecified.imm
    raw := word }

/-- The ports of a state. Before the outputs have settled every port is unspecified (R108). -/
def State.ports (s : State) (unspecified : Ports s.opids.width) : Ports s.opids.width :=
  match s.out with
  | some v => Ports.drive s.opids unspecified s.word v
  | none => unspecified

/-- Why port values are outside the spec for a consumer (spec/93_implementation_defined.md U5). -/
inductive PortRefusal where
  /-- `kind` = 6 is never driven (R22). Safe. -/
  | kindNeverDriven
  /-- A code of no operation is never driven: under the default, codes 10 to 15 (R67). Safe. -/
  | opidNeverDriven (code : Nat)
deriving DecidableEq, Repr

/-- The record a consumer reads from the ports for a format: only the ports that the format makes meaningful are read
(R23). -/
def Ports.readRecord {Op : Type} {opidW : Nat} (p : Ports opidW) (op : Op) : FormatKind → Instruction Op
  | .R => .R op p.rd p.func3 p.rs1 p.rs2 p.func7
  | .I => .I op p.rd p.func3 p.rs1 p.imm
  | .S => .S op p.func3 p.rs1 p.rs2 p.imm
  | .B => .B op p.func3 p.rs1 p.rs2 p.imm
  | .U => .U op p.rd p.imm
  | .J => .J op p.rd p.imm

/-- How a consumer that shares the codes `t` reads the decoded value back from the ports (R22, R23). -/
def Ports.read {Op : Type} (t : OpidTable Op) (p : Ports t.width) : Except PortRefusal (Instruction Op) :=
  if p.kind = 7 then .ok (.Unrecognized p.raw)
  else
    match formatOf p.kind, t.op? p.opid with
    | some fmt, some op => .ok (p.readRecord op fmt)
    | none, _ => .error .kindNeverDriven
    | some _, none => .error (.opidNeverDriven p.opid.toNat)

/-- The five-way immediate multiplexer (R80); it has no input for R. -/
def immMux (fmt : FormatKind) (w : Word) : Option Word :=
  match fmt with
  | .R => none
  | .I => some (iImm w)
  | .S => some (sImm w)
  | .B => some (bImm w)
  | .U => some (uImm w)
  | .J => some (jImm w)

/-- Which formats have `rd` (R23). -/
def hasRd (fmt : FormatKind) : Bool := fmt = .R ∨ fmt = .I ∨ fmt = .U ∨ fmt = .J

/-- Which formats have `func3` and `rs1` (R23). -/
def hasRs1 (fmt : FormatKind) : Bool := fmt = .R ∨ fmt = .I ∨ fmt = .S ∨ fmt = .B

/-- Which formats have `rs2` (R23). -/
def hasRs2 (fmt : FormatKind) : Bool := fmt = .R ∨ fmt = .S ∨ fmt = .B

/-- Which formats have `func7` (R23). -/
def hasFunc7 (fmt : FormatKind) : Bool := fmt = .R

/-- The block as hardware on input `w` (R71, R80): the registry entry of `w[6:0]`, and per port one slice of the word or
the immediate multiplexer, selected by the entry's format. -/
def hardwarePorts {Op : Type} [DecidableEq Op] (t : OpidTable Op) (unspecified : Ports t.width)
    (entry : Option (Op × FormatKind)) (w : Word) : Ports t.width :=
  match entry with
  | none => { unspecified with kind := 7, raw := w }
  | some (op, fmt) =>
    { kind := fmt.code
      opid := (t.code? op).getD unspecified.opid
      rd := if hasRd fmt then rdField w else unspecified.rd
      func3 := if hasRs1 fmt then func3Field w else unspecified.func3
      rs1 := if hasRs1 fmt then rs1Field w else unspecified.rs1
      rs2 := if hasRs2 fmt then rs2Field w else unspecified.rs2
      func7 := if hasFunc7 fmt then func7Field w else unspecified.func7
      imm := (immMux fmt w).getD unspecified.imm
      raw := w }

end Sys2Proof.Machine
end

