-- ==== Sys2Proof/Machine/Stream.lean ====
section
/-! DEFINITION. Many words (spec/20_memory.md R31, spec/60_exceptions.md R105): one block that is given a list of words one
after the other, and copies of the block that share the work of a buffer. -/

namespace Sys2Proof.Machine

/-- The words of a list are presented in turn and each is decoded by one step. The answer is the last state and the
decoded values in order, the block's observable result (spec/95_test_vectors.md section 4). -/
def decodeStream : List Word → State → Host.Outcome (State × List (Instruction OpcodeId)) Fault Refusal
  | [], s => .next (s, [])
  | w :: ws, s =>
    match step (s.present w) with
    | .next t =>
      match decodeStream ws t with
      | .next (u, vs) => .next (u, t.out.toList ++ vs)
      | .fault f => .fault f
      | .refused r => .refused r
    | .fault f => .fault f
    | .refused r => .refused r

/-- One copy of the block decodes its share of a buffer, each word under its index (R105). -/
def decodeShare {Op : Type} (reg : Registry Op) (share : List (Nat × Word)) : List (Nat × Instruction Op) :=
  share.map fun job => (job.1, decode reg job.2)

/-- The caller puts the results of the copies back in index order (R31). -/
def reassemble {Op : Type} (n : Nat) (results : List (Nat × Instruction Op)) : List (Option (Instruction Op)) :=
  (List.range n).map fun k => List.lookup k results

end Sys2Proof.Machine
end

