-- ==== Sys2Proof/Safety.lean ====
section
/-! DEFINITION. What the claims call a good state and a run without a stop. -/

namespace Sys2Proof.Machine

/-- The outputs, where they have settled, are `decode` of the present word (spec/70_reset_and_hazards.md R106). -/
def State.OutputsFollowWord (s : State) : Prop :=
  ∀ v, s.out = some v → v = decode s.registry s.word

/-- The `opid` codes are an encoding of an enumeration that the registry ranges over (R7, R67). -/
def State.OpidsFit (s : State) : Prop :=
  s.opids.wf = true ∧ s.opids.covers s.registry = true

/-- The invariant of the machine: the registry is well formed (R60), its operations have their codes (R7, R67), and the
outputs follow the word (R106). -/
def State.Inv (s : State) : Prop :=
  s.registry.wf = true ∧ s.OpidsFit ∧ s.OutputsFollowWord

/-- A step that does not stop (R97). -/
def State.Runs (s : State) : Prop := ∃ t, step s = .next t

end Sys2Proof.Machine
end

