-- ==== Sys2Proof/Certificates/Slice0/Obligations.lean ====
section
/-! DEFINITION. The statements about the decode core, for the provers. Field positions and immediates are written out here
from spec/30_encoding.md with the library's own `extractLsb`, `++` and `signExtend`, not with the model's field cuts, so
that a wrong cut in the model makes a statement false. Statements about the pipeline hold for every enumeration of operations
`Op` and every registry; statements about a step hold for every state, reached or not.
That a decode is one step ending with the outputs settled (notes/assumptions/2.md), that `REGISTRY` is a field of the
state (notes/assumptions/4.md) and that its `opid` codes are one beside it (notes/assumptions/10.md) is the model's form;
what a step delivers is what the rules say of `decode`. -/

open Sys2Proof Sys2Proof.Machine

/-! ### Encoding -/

/-- Words of spec/95_test_vectors.md section 2, one or more per row of the opcode table, read by the table decoder. -/
def Obligations.SpecWordsDecodeToTheirRows : Prop :=
  decodeTableWord 32 0x00812283 = some (.load 5 2 2 8) ∧
  decodeTableWord 32 0xFFF04383 = some (.load 7 4 0 0xFFF) ∧
  decodeTableWord 32 0x8330000F = some (.miscMem 0 0 0 0x833) ∧
  decodeTableWord 32 0x4032D293 = some (.addi 5 5 5 0x403) ∧
  decodeTableWord 32 0xFFFFF097 = some (.auipc 1 0xFFFFF) ∧
  decodeTableWord 32 0x00112623 = some (.store 2 2 1 12) ∧
  decodeTableWord 32 0x40B50533 = some (.op 10 0 10 11 0x20) ∧
  decodeTableWord 32 0x123450B7 = some (.lui 1 0x12345) ∧
  decodeTableWord 32 0xFE029CE3 = some (.branch 1 5 0 0x1FF8) ∧
  decodeTableWord 32 0xFFC280E7 = some (.jalr 1 0 5 0xFFC) ∧
  decodeTableWord 32 0xFFDFF06F = some (.jal 0 0x1FFFFC) ∧
  decodeTableWord 32 0x00000073 = none

/-- Decoding the word of a well-formed instruction gives the instruction back, every operand at every value, and so
does the table decoder, which goes through bytes. -/
def Obligations.DecodeOfEncodeIsTheInstruction : Prop :=
  ∀ i : Instr, i.wellFormed = true →
    decodeInstr registryRV32I (encode i) = .ok i ∧ decodeTableWord 32 (encode i).toNat = some i

/-- A word that any registry's decoder reads as an instruction is that instruction's word, and the instruction is well
formed. -/
def Obligations.EncodeOfDecodeIsTheWord : Prop :=
  ∀ (reg : Registry OpcodeId) (w : Word) (i : Instr), decodeInstr reg w = .ok i →
    encode i = w ∧ i.wellFormed = true

/-- For every registry, the word can be rebuilt from its decoded value and its opcode field (P-9). -/
def Obligations.WordIsRebuiltFromItsDecodedValue : Prop :=
  ∀ (Op : Type) (reg : Registry Op) (w : Word), rebuild (w.extractLsb 6 0) (decode reg w) = w

/-- R42, which the spec derives from R36 to R41: in each format the fields, laid out as R36 to R41 lay them out, are
the whole word; and of the words that select one registry entry two that differ in any bit decode to different values.
-/
def Obligations.FieldsPartitionTheWordAndDecodingIsInjective : Prop :=
  (∀ (Op : Type) (op : Op) (w : Word),
    (∃ rd f3 rs1 rs2 f7, extractR op w = .R op rd f3 rs1 rs2 f7 ∧
      (f7 ++ rs2 ++ rs1 ++ f3 ++ rd ++ w.extractLsb 6 0 : BitVec 32) = w) ∧
    (∃ rd f3 rs1 imm, extractI op w = .I op rd f3 rs1 imm ∧
      (imm.extractLsb 11 0 ++ rs1 ++ f3 ++ rd ++ w.extractLsb 6 0 : BitVec 32) = w) ∧
    (∃ f3 rs1 rs2 imm, extractS op w = .S op f3 rs1 rs2 imm ∧
      (imm.extractLsb 11 5 ++ rs2 ++ rs1 ++ f3 ++ imm.extractLsb 4 0 ++ w.extractLsb 6 0 : BitVec 32) = w) ∧
    (∃ f3 rs1 rs2 imm, extractB op w = .B op f3 rs1 rs2 imm ∧
      (imm.extractLsb 12 12 ++ imm.extractLsb 10 5 ++ rs2 ++ rs1 ++ f3 ++ imm.extractLsb 4 1 ++
        imm.extractLsb 11 11 ++ w.extractLsb 6 0 : BitVec 32) = w) ∧
    (∃ rd imm, extractU op w = .U op rd imm ∧
      (imm.extractLsb 31 12 ++ rd ++ w.extractLsb 6 0 : BitVec 32) = w) ∧
    (∃ rd imm, extractJ op w = .J op rd imm ∧
      (imm.extractLsb 20 20 ++ imm.extractLsb 10 1 ++ imm.extractLsb 11 11 ++ imm.extractLsb 19 12 ++ rd ++
        w.extractLsb 6 0 : BitVec 32) = w)) ∧
  (∀ (Op : Type) (reg : Registry Op) (w w' : Word) (op : Op) (fmt : FormatKind),
    classify reg (w.extractLsb 6 0) = some (op, fmt) → w'.extractLsb 6 0 = w.extractLsb 6 0 → w ≠ w' →
    decode reg w ≠ decode reg w')

/-! ### The registry -/

/-- R62 (the contents are the spec's decision D2): the ten entries, nothing else, and the `opid` codes in 4 bits (R67). -/
def Obligations.DefaultRegistryHoldsExactlyTheTenRows : Prop :=
  (classify registryRV32I 0x03#7 = some (.LOAD, .I) ∧ classify registryRV32I 0x0F#7 = some (.MISC_MEM, .I) ∧
    classify registryRV32I 0x13#7 = some (.ADDI, .I) ∧ classify registryRV32I 0x17#7 = some (.AUIPC, .U) ∧
    classify registryRV32I 0x23#7 = some (.STORE, .S) ∧ classify registryRV32I 0x33#7 = some (.OP, .R) ∧
    classify registryRV32I 0x37#7 = some (.LUI, .U) ∧ classify registryRV32I 0x63#7 = some (.BRANCH, .B) ∧
    classify registryRV32I 0x67#7 = some (.JALR, .I) ∧ classify registryRV32I 0x6F#7 = some (.JAL, .J)) ∧
  (∀ b : Opcode7, b ∉ [0x03#7, 0x0F#7, 0x13#7, 0x17#7, 0x23#7, 0x33#7, 0x37#7, 0x63#7, 0x67#7, 0x6F#7] →
    classify registryRV32I b = none) ∧
  opidsRV32I = { width := 4, codes :=
    [(.LOAD, 0), (.MISC_MEM, 1), (.ADDI, 2), (.AUIPC, 3), (.STORE, 4), (.OP, 5), (.LUI, 6), (.BRANCH, 7), (.JALR, 8),
      (.JAL, 9)] }

/-- R66, which the spec derives from R62: the ten entries have ten different operations, so the 7-bit opcode of a
recognised word is a function of its operation, and the default registry is well formed in the sense of R60. -/
def Obligations.DefaultRegistryIsInjectiveAndWellFormed : Prop :=
  (∀ (a b : Opcode7) (op : OpcodeId) (f g : FormatKind),
    classify registryRV32I a = some (op, f) → classify registryRV32I b = some (op, g) → a = b ∧ f = g) ∧
  (∀ op ∈ [OpcodeId.LOAD, .MISC_MEM, .ADDI, .AUIPC, .STORE, .OP, .LUI, .BRANCH, .JALR, .JAL],
    ∃ b f, classify registryRV32I b = some (op, f)) ∧
  registryRV32I.wf = true

/-- R60: a step refuses exactly the registries in which one operation has two formats, and refuses nothing else. -/
def Obligations.StepRefusesExactlyTheIllFormedRegistries : Prop :=
  ∀ s : State,
    (step s = .refused .registryIllFormed ↔
      ∃ (a b : Opcode7) (op : OpcodeId) (f g : FormatKind),
        classify s.registry a = some (op, f) ∧ classify s.registry b = some (op, g) ∧ f ≠ g) ∧
    (∀ r, step s = .refused r → r = .registryIllFormed)

/-- R64 (the spec's decision D2): under the alternative registry an OP-IMM word decodes as under the default one and
every other word is Unrecognized. -/
def Obligations.DocRegistryRecognisesOnlyOpImm : Prop :=
  (∀ b : Opcode7, classify registryDoc b = if b = 0x13#7 then some (.ADDI, .I) else none) ∧
  (∀ (s : State) (w : Word), s.registry = registryDoc →
    (w.extractLsb 6 0 = 0x13#7 → step (s.present w) = .next { s with
      word := w
      out := some (.I .ADDI (w.extractLsb 11 7) (w.extractLsb 14 12) (w.extractLsb 19 15)
        ((w.extractLsb 31 20).signExtend 32)) }) ∧
    (w.extractLsb 6 0 ≠ 0x13#7 → step (s.present w) = .next { s with word := w, out := some (.Unrecognized w) }))

/-- R67: the hardware table of any registry over any enumeration, whatever its absent rows hold beside the present bit,
reads back as the registry; its present rows hold only codes of the enumeration, under the default `opid` codes 0 to 9,
and format codes 0 to 5. The enumeration as a list of operations and codes is the model's form
(notes/assumptions/10.md). -/
def Obligations.RomTableReadsBackTheRegistry : Prop :=
  (∀ (Op : Type) [DecidableEq Op] (t : OpidTable Op) (junk : Vector (BitVec t.width × BitVec 3) 128)
    (reg : Registry Op), t.wf = true → t.covers reg = true →
    (∀ b : Opcode7, (Rom.ofRegistry t junk reg).lookup t b = .ok (classify reg b)) ∧
    (∀ (k : Nat) (h : k < 128), (Rom.ofRegistry t junk reg).rows[k].present = true →
      (∃ op, t.code? op = some (Rom.ofRegistry t junk reg).rows[k].opid) ∧
      (Rom.ofRegistry t junk reg).rows[k].format.toNat < 6)) ∧
  (∀ (junk : Vector (BitVec 4 × BitVec 3) 128) (reg : Registry OpcodeId), opidsRV32I.covers reg = true →
    ∀ (k : Nat) (h : k < 128), (Rom.ofRegistry opidsRV32I junk reg).rows[k].present = true →
      (Rom.ofRegistry opidsRV32I junk reg).rows[k].opid.toNat < 10)

/-! ### The pipeline, for every registry -/

/-- R69 to R78: the registry lookup on `w[6:0]` first, then the one extractor of the entry's format, its fields and
immediates as the rules write them. -/
def Obligations.DecodeAppliesTheExtractorOfTheEntrysFormat : Prop :=
  ∀ (Op : Type) (reg : Registry Op) (w : Word),
    decode reg w =
      match classify reg (w.extractLsb 6 0) with
      | none => .Unrecognized w
      | some (op, .R) =>
        .R op (w.extractLsb 11 7) (w.extractLsb 14 12) (w.extractLsb 19 15) (w.extractLsb 24 20) (w.extractLsb 31 25)
      | some (op, .I) =>
        .I op (w.extractLsb 11 7) (w.extractLsb 14 12) (w.extractLsb 19 15) ((w.extractLsb 31 20).signExtend 32)
      | some (op, .S) =>
        .S op (w.extractLsb 14 12) (w.extractLsb 19 15) (w.extractLsb 24 20)
          ((w.extractLsb 31 25 ++ w.extractLsb 11 7).signExtend 32)
      | some (op, .B) =>
        .B op (w.extractLsb 14 12) (w.extractLsb 19 15) (w.extractLsb 24 20)
          ((w.extractLsb 31 31 ++ w.extractLsb 7 7 ++ w.extractLsb 30 25 ++ w.extractLsb 11 8 ++ 0b0#1).signExtend 32)
      | some (op, .U) => .U op (w.extractLsb 11 7) (w.extractLsb 31 12 ++ 0x000#12)
      | some (op, .J) =>
        .J op (w.extractLsb 11 7)
          ((w.extractLsb 31 31 ++ w.extractLsb 19 12 ++ w.extractLsb 20 20 ++ w.extractLsb 30 21 ++
            0b0#1).signExtend 32)

/-- R43, R44 (32 bits are the spec's decision D3): the table of immediate assembly, bit by bit, for every format that
has an immediate; R has none. -/
def Obligations.ImmediatesAreAssembledBitByBit : Prop :=
  ∀ (Op : Type) (op : Op) (w : Word),
    (extract .R op w).imm? = none ∧
    (∃ v, (extract .I op w).imm? = some v ∧
      (∀ i, 12 ≤ i → i < 32 → v.getLsbD i = w.getLsbD 31) ∧ (∀ i, i < 12 → v.getLsbD i = w.getLsbD (20 + i))) ∧
    (∃ v, (extract .S op w).imm? = some v ∧
      (∀ i, 12 ≤ i → i < 32 → v.getLsbD i = w.getLsbD 31) ∧
      (∀ i, i < 7 → v.getLsbD (5 + i) = w.getLsbD (25 + i)) ∧ (∀ i, i < 5 → v.getLsbD i = w.getLsbD (7 + i))) ∧
    (∃ v, (extract .B op w).imm? = some v ∧
      (∀ i, 12 ≤ i → i < 32 → v.getLsbD i = w.getLsbD 31) ∧ v.getLsbD 11 = w.getLsbD 7 ∧
      (∀ i, i < 6 → v.getLsbD (5 + i) = w.getLsbD (25 + i)) ∧ (∀ i, i < 4 → v.getLsbD (1 + i) = w.getLsbD (8 + i)) ∧
      v.getLsbD 0 = false) ∧
    (∃ v, (extract .U op w).imm? = some v ∧
      (∀ i, 12 ≤ i → i < 32 → v.getLsbD i = w.getLsbD i) ∧ (∀ i, i < 12 → v.getLsbD i = false)) ∧
    (∃ v, (extract .J op w).imm? = some v ∧
      (∀ i, 20 ≤ i → i < 32 → v.getLsbD i = w.getLsbD 31) ∧
      (∀ i, i < 8 → v.getLsbD (12 + i) = w.getLsbD (12 + i)) ∧ v.getLsbD 11 = w.getLsbD 20 ∧
      (∀ i, i < 10 → v.getLsbD (1 + i) = w.getLsbD (21 + i)) ∧ v.getLsbD 0 = false)

/-- R45, which the spec derives from R43: the values each immediate takes, exactly, and that each is reached by one
setting of the encoded bits. -/
def Obligations.ImmediateRangesAreExact : Prop :=
  (∀ n : Int, (∃ w, (iImm w).toInt = n) ↔ -2048 ≤ n ∧ n ≤ 2047) ∧
  (∀ n : Int, (∃ w, (sImm w).toInt = n) ↔ -2048 ≤ n ∧ n ≤ 2047) ∧
  (∀ n : Int, (∃ w, (bImm w).toInt = n) ↔ -4096 ≤ n ∧ n ≤ 4094 ∧ 2 ∣ n) ∧
  (∀ n : Int, (∃ w, (jImm w).toInt = n) ↔ -1048576 ≤ n ∧ n ≤ 1048574 ∧ 2 ∣ n) ∧
  (∀ n : Int, (∃ w, (uImm w).toInt = n) ↔ -2147483648 ≤ n ∧ n ≤ 2147479552 ∧ 4096 ∣ n) ∧
  (∀ w w' : Word, iImm w = iImm w' → w.extractLsb 31 20 = w'.extractLsb 31 20) ∧
  (∀ w w' : Word, sImm w = sImm w' →
    w.extractLsb 31 25 = w'.extractLsb 31 25 ∧ w.extractLsb 11 7 = w'.extractLsb 11 7) ∧
  (∀ w w' : Word, bImm w = bImm w' →
    w.extractLsb 31 25 = w'.extractLsb 31 25 ∧ w.extractLsb 11 7 = w'.extractLsb 11 7) ∧
  (∀ w w' : Word, jImm w = jImm w' → w.extractLsb 31 12 = w'.extractLsb 31 12) ∧
  (∀ w w' : Word, uImm w = uImm w' → w.extractLsb 31 12 = w'.extractLsb 31 12)

/-- R79 (its 32-bit width is the spec's decision D3): the unit puts its sign input over the pattern, the sign input is
`w[31]` and the pattern's top bit in each of its four uses, the represented value is kept, and U does not use it. -/
def Obligations.SignUnitKeepsTheRepresentedValue : Prop :=
  (∀ k ∈ [12, 13, 21], ∀ (sign : Bool) (v : BitVec k), ∀ i < 32,
    (signUnit sign v).getLsbD i = if i < k then v.getLsbD i else sign) ∧
  (∀ k ∈ [12, 13, 21], ∀ v : BitVec k,
    signUnit v.msb v = v.signExtend 32 ∧ (signUnit v.msb v).toInt = v.toInt) ∧
  (∀ w : Word, (iPattern w).msb = w.getLsbD 31 ∧ (sPattern w).msb = w.getLsbD 31 ∧
    (bPattern w).msb = w.getLsbD 31 ∧ (jPattern w).msb = w.getLsbD 31) ∧
  (∀ (Op : Type) (op : Op) (w : Word),
    (extractI op w).imm? = some (signUnit (w.getLsbD 31) (w.extractLsb 31 20)) ∧
    (extractS op w).imm? = some (signUnit (w.getLsbD 31) (w.extractLsb 31 25 ++ w.extractLsb 11 7)) ∧
    (extractB op w).imm? = some (signUnit (w.getLsbD 31)
      (w.extractLsb 31 31 ++ w.extractLsb 7 7 ++ w.extractLsb 30 25 ++ w.extractLsb 11 8 ++ 0b0#1)) ∧
    (extractJ op w).imm? = some (signUnit (w.getLsbD 31)
      (w.extractLsb 31 31 ++ w.extractLsb 19 12 ++ w.extractLsb 20 20 ++ w.extractLsb 30 21 ++ 0b0#1)) ∧
    (extractU op w).imm? = some (w.extractLsb 31 12 ++ 0x000#12))

/-- R81, which the spec derives from R70 and R72 to R79: the five invariants of every decoded value. -/
def Obligations.EveryDecodedValueMeetsTheFieldInvariants : Prop :=
  ∀ (Op : Type) (reg : Registry Op) (w : Word),
    (∀ r : RegIndex, (decode reg w).rd? = some r ∨ (decode reg w).rs1? = some r ∨ (decode reg w).rs2? = some r →
      r.toNat < 32) ∧
    (∀ imm, (decode reg w).imm? = some imm →
      ((decode reg w).format = some .B ∨ (decode reg w).format = some .J) → imm.getLsbD 0 = false) ∧
    (∀ imm, (decode reg w).imm? = some imm →
      imm.getLsbD 31 = w.getLsbD 31 ∧ (imm.toInt < 0 ↔ w.getLsbD 31 = true)) ∧
    (∀ imm, (decode reg w).imm? = some imm → (decode reg w).format = some .U → imm.extractLsb 11 0 = 0#12) ∧
    (∀ raw, decode reg w = .Unrecognized raw → raw = w)

/-- R49, R70, R100: a word is Unrecognized exactly when its opcode field is unregistered, whatever its other bits; and a
registered word's case is the entry's format and its operation the entry's. -/
def Obligations.UnrecognizedExactlyWhenUnregistered : Prop :=
  ∀ (Op : Type) (reg : Registry Op) (w : Word),
    (decode reg w = .Unrecognized w ↔ classify reg (w.extractLsb 6 0) = none) ∧
    (∀ raw, decode reg w = .Unrecognized raw → classify reg (w.extractLsb 6 0) = none) ∧
    (∀ op fmt, classify reg (w.extractLsb 6 0) = some (op, fmt) →
      (decode reg w).format = some fmt ∧ (decode reg w).opcode? = some op)

/-! ### The rows of the opcode table: what each instruction delivers, and that nothing else changes -/

/-- The I rows complete in every state with every operand, and deliver their record; registry, codes and input stay. -/
def Obligations.IFormatRowsDeliverTheirRecords : Prop :=
  ∀ (rd : RegIndex) (f3 : Func3) (rs1 : RegIndex) (imm : BitVec 12) (s : State),
    exec (.load rd f3 rs1 imm) s =
      .next ⟨s.registry, s.opids, s.word, some (.I .LOAD rd f3 rs1 (imm.signExtend 32))⟩ ∧
    exec (.miscMem rd f3 rs1 imm) s =
      .next ⟨s.registry, s.opids, s.word, some (.I .MISC_MEM rd f3 rs1 (imm.signExtend 32))⟩ ∧
    exec (.addi rd f3 rs1 imm) s =
      .next ⟨s.registry, s.opids, s.word, some (.I .ADDI rd f3 rs1 (imm.signExtend 32))⟩ ∧
    exec (.jalr rd f3 rs1 imm) s =
      .next ⟨s.registry, s.opids, s.word, some (.I .JALR rd f3 rs1 (imm.signExtend 32))⟩

/-- The U rows complete in every state with every operand, and deliver their record; registry, codes and input stay. -/
def Obligations.UFormatRowsDeliverTheirRecords : Prop :=
  ∀ (rd : RegIndex) (imm : BitVec 20) (s : State),
    exec (.auipc rd imm) s = .next ⟨s.registry, s.opids, s.word, some (.U .AUIPC rd (imm ++ 0#12))⟩ ∧
    exec (.lui rd imm) s = .next ⟨s.registry, s.opids, s.word, some (.U .LUI rd (imm ++ 0#12))⟩

/-- STORE, OP and BRANCH complete in every state with every operand, and deliver their record; registry, codes
and input stay. -/
def Obligations.StoreOpAndBranchRowsDeliverTheirRecords : Prop :=
  ∀ (rd : RegIndex) (f3 : Func3) (rs1 rs2 : RegIndex) (f7 : Func7) (off : BitVec 12) (imm : BitVec 13) (s : State),
    exec (.store f3 rs1 rs2 off) s =
      .next ⟨s.registry, s.opids, s.word, some (.S .STORE f3 rs1 rs2 (off.signExtend 32))⟩ ∧
    exec (.op rd f3 rs1 rs2 f7) s = .next ⟨s.registry, s.opids, s.word, some (.R .OP rd f3 rs1 rs2 f7)⟩ ∧
    exec (.branch f3 rs1 rs2 imm) s =
      .next ⟨s.registry, s.opids, s.word, some (.B .BRANCH f3 rs1 rs2 (imm.signExtend 32))⟩

/-- JAL completes in every state with every operand, and delivers its record; registry, codes and input stay. -/
def Obligations.JalRowDeliversItsRecord : Prop :=
  ∀ (rd : RegIndex) (imm : BitVec 21) (s : State),
    exec (.jal rd imm) s = .next ⟨s.registry, s.opids, s.word, some (.J .JAL rd (imm.signExtend 32))⟩

/-- R85, R86, R87, R93: a word with one of the four I opcodes, presented to a block whose registry has that row,
decodes to the I record with its fields, whatever they are; then the rules' examples. -/
def Obligations.IFormatWordsDecodeToTheirRecords : Prop :=
  (∀ (s : State) (w : Word) (opc : Opcode7) (op : OpcodeId),
    (opc, op) ∈ [(0b0000011#7, OpcodeId.LOAD), (0b0001111#7, OpcodeId.MISC_MEM), (0b0010011#7, OpcodeId.ADDI),
      (0b1100111#7, OpcodeId.JALR)] →
    s.registry.wf = true → classify s.registry opc = some (op, .I) → w.extractLsb 6 0 = opc →
    step (s.present w) = .next { s with
      word := w
      out := some (.I op (w.extractLsb 11 7) (w.extractLsb 14 12) (w.extractLsb 19 15)
        ((w.extractLsb 31 20).signExtend 32)) } ∧
    -2048 ≤ ((w.extractLsb 31 20).signExtend 32).toInt ∧ ((w.extractLsb 31 20).signExtend 32).toInt ≤ 2047) ∧
  decode registryRV32I 0x00812283 = .I .LOAD 5 2 2 8 ∧
  decode registryRV32I 0xFFF04383 = .I .LOAD 7 4 0 0xFFFFFFFF ∧
  decode registryRV32I 0x8330000F = .I .MISC_MEM 0 0 0 0xFFFFF833 ∧
  decode registryRV32I 0x0FF0000F = .I .MISC_MEM 0 0 0 255 ∧
  decode registryRV32I 0x0000100F = .I .MISC_MEM 0 1 0 0 ∧
  decode registryRV32I 0x4032D293 = .I .ADDI 5 5 5 0x403 ∧
  decode registryRV32I 0x00000013 = .I .ADDI 0 0 0 0 ∧
  decode registryRV32I 0xFFF30293 = .I .ADDI 5 0 6 0xFFFFFFFF ∧
  decode registryRV32I 0x00A30293 = .I .ADDI 5 0 6 10 ∧
  decode registryRV32I 0x00008067 = .I .JALR 0 0 1 0 ∧
  decode registryRV32I 0xFFC280E7 = .I .JALR 1 0 5 0xFFFFFFFC

/-- R88, R91: a word with a U opcode, presented to a block whose registry has that row, decodes to the U record: the
upper 20 bits stand where they are and the lower 12 are 0; then the rules' examples. -/
def Obligations.UFormatWordsDecodeToTheirRecords : Prop :=
  (∀ (s : State) (w : Word) (opc : Opcode7) (op : OpcodeId),
    (opc, op) ∈ [(0b0010111#7, OpcodeId.AUIPC), (0b0110111#7, OpcodeId.LUI)] →
    s.registry.wf = true → classify s.registry opc = some (op, .U) → w.extractLsb 6 0 = opc →
    step (s.present w) = .next { s with
      word := w
      out := some (.U op (w.extractLsb 11 7) (w.extractLsb 31 12 ++ 0x000#12)) }) ∧
  decode registryRV32I 0xFFFFF097 = .U .AUIPC 1 0xFFFFF000 ∧
  decode registryRV32I 0x00000017 = .U .AUIPC 0 0 ∧
  decode registryRV32I 0x123450B7 = .U .LUI 1 0x12345000 ∧
  decode registryRV32I 0x80000037 = .U .LUI 0 0x80000000

/-- R89: a word with the STORE opcode decodes to the S record; bits [11:7] are immediate bits, never a register. -/
def Obligations.StoreWordsDecodeToTheirRecords : Prop :=
  (∀ (s : State) (w : Word),
    s.registry.wf = true → classify s.registry 0b0100011#7 = some (.STORE, .S) → w.extractLsb 6 0 = 0b0100011#7 →
    step (s.present w) = .next { s with
      word := w
      out := some (.S .STORE (w.extractLsb 14 12) (w.extractLsb 19 15) (w.extractLsb 24 20)
        ((w.extractLsb 31 25 ++ w.extractLsb 11 7).signExtend 32)) } ∧
    -2048 ≤ ((w.extractLsb 31 25 ++ w.extractLsb 11 7).signExtend 32).toInt ∧
    ((w.extractLsb 31 25 ++ w.extractLsb 11 7).signExtend 32).toInt ≤ 2047) ∧
  decode registryRV32I 0x00112623 = .S .STORE 2 2 1 12 ∧
  decode registryRV32I 0xFE000FA3 = .S .STORE 0 0 0 0xFFFFFFFF

/-- R90: a word with the OP opcode decodes to the R record, `func7` raw. -/
def Obligations.OpWordsDecodeToTheirRecords : Prop :=
  (∀ (s : State) (w : Word),
    s.registry.wf = true → classify s.registry 0b0110011#7 = some (.OP, .R) → w.extractLsb 6 0 = 0b0110011#7 →
    step (s.present w) = .next { s with
      word := w
      out := some (.R .OP (w.extractLsb 11 7) (w.extractLsb 14 12) (w.extractLsb 19 15) (w.extractLsb 24 20)
        (w.extractLsb 31 25)) }) ∧
  decode registryRV32I 0x00000033 = .R .OP 0 0 0 0 0 ∧
  decode registryRV32I 0x40B50533 = .R .OP 10 0 10 11 0x20

/-- R92: a word with the BRANCH opcode decodes to the B record, its offset even and within range. -/
def Obligations.BranchWordsDecodeToTheirRecords : Prop :=
  (∀ (s : State) (w : Word) (imm : Word),
    imm = (w.extractLsb 31 31 ++ w.extractLsb 7 7 ++ w.extractLsb 30 25 ++ w.extractLsb 11 8 ++ 0b0#1).signExtend 32 →
    s.registry.wf = true → classify s.registry 0b1100011#7 = some (.BRANCH, .B) → w.extractLsb 6 0 = 0b1100011#7 →
    step (s.present w) = .next { s with
      word := w
      out := some (.B .BRANCH (w.extractLsb 14 12) (w.extractLsb 19 15) (w.extractLsb 24 20) imm) } ∧
    imm.getLsbD 0 = false ∧ imm.getLsbD 11 = w.getLsbD 7 ∧ -4096 ≤ imm.toInt ∧ imm.toInt ≤ 4094) ∧
  decode registryRV32I 0x00208863 = .B .BRANCH 0 1 2 16 ∧
  decode registryRV32I 0xFE029CE3 = .B .BRANCH 1 5 0 0xFFFFFFF8

/-- R94: a word with the JAL opcode decodes to the J record, its offset even and within range. -/
def Obligations.JalWordsDecodeToTheirRecords : Prop :=
  (∀ (s : State) (w : Word) (imm : Word),
    imm = (w.extractLsb 31 31 ++ w.extractLsb 19 12 ++ w.extractLsb 20 20 ++ w.extractLsb 30 21 ++
      0b0#1).signExtend 32 →
    s.registry.wf = true → classify s.registry 0b1101111#7 = some (.JAL, .J) → w.extractLsb 6 0 = 0b1101111#7 →
    step (s.present w) = .next { s with word := w, out := some (.J .JAL (w.extractLsb 11 7) imm) } ∧
    imm.getLsbD 0 = false ∧ imm.getLsbD 11 = w.getLsbD 20 ∧ -1048576 ≤ imm.toInt ∧ imm.toInt ≤ 1048574) ∧
  decode registryRV32I 0x004000EF = .J .JAL 1 4 ∧
  decode registryRV32I 0xFFDFF06F = .J .JAL 0 0xFFFFFFFC

/-- R70, R95, R98: under any well-formed registry a word whose opcode is unregistered is delivered as Unrecognized
with the whole word; under the default registry those are the 118 values of R65's table; then R95's examples. -/
def Obligations.UnknownOpcodesAreReportedWithTheWholeWord : Prop :=
  (∀ (s : State) (w : Word), s.registry.wf = true → classify s.registry (w.extractLsb 6 0) = none →
    step (s.present w) = .next { s with word := w, out := some (.Unrecognized w) }) ∧
  (∀ (s : State) (w : Word), s.registry = registryRV32I →
    (step (s.present w) = .next { s with word := w, out := some (.Unrecognized w) } ↔
      w.extractLsb 1 0 ≠ 0b11#2 ∨
      w.extractLsb 6 0 ∈ [0x73#7, 0x07#7, 0x27#7, 0x43#7, 0x47#7, 0x4B#7, 0x4F#7, 0x53#7, 0x57#7, 0x77#7, 0x2F#7,
        0x1B#7, 0x3B#7, 0x0B#7, 0x2B#7, 0x5B#7, 0x7B#7, 0x6B#7, 0x1F#7, 0x3F#7, 0x5F#7, 0x7F#7])) ∧
  decode registryRV32I 0x00000000 = .Unrecognized 0x00000000 ∧
  decode registryRV32I 0xFFFFFFFF = .Unrecognized 0xFFFFFFFF ∧
  decode registryRV32I 0x00000073 = .Unrecognized 0x00000073 ∧
  decode registryRV32I 0x00100073 = .Unrecognized 0x00100073

/-! ### The machine -/

/-- When the present word decodes to an instruction, a step is that instruction's `exec`, with nothing around it; a word
placed with `withFetchWord` is the one the next step decodes. The registry is well formed where it must be (R60). -/
def Obligations.StepRunsTheDecodedInstruction : Prop :=
  ∀ (s : State) (i : Instr), s.registry.wf = true →
    (decodeInstr s.registry s.word = .ok i → step s = exec i s) ∧
    (∀ n w : Nat, decodeInstr s.registry (BitVec.ofNat 32 (w % 2 ^ n)) = .ok i →
      step (s.withFetchWord n w) = exec i (s.withFetchWord n w))

/-- Through whichever arm a step goes, it delivers `decode` of the present word under the state's registry and changes
nothing else: the meanings of the ten rows, written apart, agree with the generic pipeline (R68, R69, R106). -/
def Obligations.StepDeliversDecodeOfTheWord : Prop :=
  ∀ s : State, s.registry.wf = true →
    step s = .next
      { registry := s.registry, opids := s.opids, word := s.word, out := some (decode s.registry s.word) }

/-- R97: no step faults, and with a well-formed registry no word on the input stops the block. -/
def Obligations.NoWordStopsTheBlock : Prop :=
  (∀ (s : State) (f : Fault), step s ≠ .fault f) ∧
  (∀ (s : State) (w : Word), s.registry.wf = true → (s.present w).Runs) ∧
  (∀ (i : Instr) (s : State), ∃ t, exec i s = .next t)

/-- The invariant (registry well formed, its operations have their codes, settled outputs follow the word) survives a step
and everything the outside does: presenting a word, waiting, a collaborator's fetch. -/
def Obligations.OutputsFollowTheWordAfterEveryAction : Prop :=
  ∀ s : State, s.Inv →
    (∀ t, step s = .next t → t.Inv) ∧ (∀ w, (s.present w).Inv) ∧ (∀ time, (s.elapse time).Inv) ∧
    (∀ n w, (s.withFetchWord n w).Inv) ∧ (∀ order mem a, (s.fetchFrom order mem a).Inv)

/-- The state after reset meets the invariant. -/
def Obligations.ResetMeetsTheInvariant : Prop := State.reset.Inv

/-- R106: after power-up the registry table holds its build-time contents, with the default's `opid` codes (R62, R67), and
the outputs are `decode` of the present word. That the present word is then 0 is the model's choice (notes/assumptions/1.md). -/
def Obligations.ResetHoldsTheDefaultRegistry : Prop :=
  State.reset.registry = registryRV32I ∧
  State.reset.opids = opidsRV32I ∧
  State.reset.out = some (decode registryRV32I State.reset.word) ∧
  State.reset.word = 0

/-- R61, R14: no step and no instruction writes the registry table, the `opid` codes or the input port; presenting words,
waiting and decoding a stream write neither table. -/
def Obligations.NothingWritesTheRegistryOrTheInput : Prop :=
  (∀ s t : State, step s = .next t → t.registry = s.registry ∧ t.opids = s.opids ∧ t.word = s.word) ∧
  (∀ (i : Instr) (s t : State), exec i s = .next t →
    t.registry = s.registry ∧ t.opids = s.opids ∧ t.word = s.word) ∧
  (∀ (s : State) (w : Word), (s.present w).registry = s.registry ∧ (s.present w).opids = s.opids) ∧
  (∀ (s : State) (time : Nat), (s.elapse time).registry = s.registry ∧ (s.elapse time).opids = s.opids ∧
    (s.elapse time).word = s.word) ∧
  (∀ (ws : List Word) (s t : State) (vs : List (Instruction OpcodeId)),
    decodeStream ws s = .next (t, vs) → t.registry = s.registry ∧ t.opids = s.opids)

/-- R18, R82: what a step delivers depends on the present word and the registry alone, not on what the outputs held nor on
the `opid` codes; and two decodes of one word agree whatever words came between. -/
def Obligations.EarlierDecodesHaveNoInfluence : Prop :=
  (∀ s s' t : State, s.registry = s'.registry → s.word = s'.word → step s = .next t →
    step s' = .next { s' with out := t.out }) ∧
  (∀ s s' : State, s.registry = s'.registry → s.opids = s'.opids → s.word = s'.word → step s = step s') ∧
  (∀ (ws : List Word) (s t : State) (vs : List (Instruction OpcodeId)) (w : Word),
    decodeStream ws s = .next (t, vs) → step (t.present w) = step (s.present w))

/-- R29: decoding has no side effect, on the registry, its codes or the input, and decoding the word again changes
nothing. -/
def Obligations.DecodingIsIdempotentWithoutSideEffects : Prop :=
  ∀ s t : State, step s = .next t →
    t.registry = s.registry ∧ t.opids = s.opids ∧ t.word = s.word ∧ step t = .next t

/-- R108: after a change of the word the outputs are `decode` of it once `T_DECODE` has elapsed, which is what a step
delivers, and before that every port is unspecified. Presenting the word that is there already is no change: the state
stays as it is (R106). The bound is one for all words (R110). A step that ends with the outputs settled is the model's
choice (notes/assumptions/2.md). -/
def Obligations.OutputsSettleWithinTDecode : Prop :=
  ∀ (s : State) (w : Word), s.registry.wf = true →
    (∀ time, ((s.present w).elapse time).out =
      if Config.tDecode ≤ time then some (decode s.registry w) else if w = s.word then s.out else none) ∧
    (∀ time unspecified, Config.tDecode ≤ time →
      ((s.present w).elapse time).ports unspecified =
        Ports.drive ((s.present w).elapse time).opids unspecified w (decode s.registry w)) ∧
    (∀ time unspecified, time < Config.tDecode → w ≠ s.word →
      ((s.present w).elapse time).ports unspecified = unspecified) ∧
    s.present s.word = s ∧
    (∀ time, Config.tDecode ≤ time → step (s.present w) = .next ((s.present w).elapse time))

/-! ### Ports -/

/-- R22, R23: what each of the nine ports carries in each of the seven cases, `opid` the code of the operation in the
enumeration at hand (R67). A port whose field the case lacks carries the unspecified value, whatever it is. -/
def Obligations.PortsCarryTheFieldsOfTheCase : Prop :=
  ∀ (Op : Type) [DecidableEq Op] (t : OpidTable Op) (u : Ports t.width) (w : Word) (op : Op) (c : BitVec t.width)
    (rd : RegIndex) (f3 : Func3) (rs1 rs2 : RegIndex) (f7 : Func7) (imm : Word),
    (t.code? op = some c →
      Ports.drive t u w (.R op rd f3 rs1 rs2 f7) = ⟨0, c, rd, f3, rs1, rs2, f7, u.imm, w⟩ ∧
      Ports.drive t u w (.I op rd f3 rs1 imm) = ⟨1, c, rd, f3, rs1, u.rs2, u.func7, imm, w⟩ ∧
      Ports.drive t u w (.S op f3 rs1 rs2 imm) = ⟨2, c, u.rd, f3, rs1, rs2, u.func7, imm, w⟩ ∧
      Ports.drive t u w (.B op f3 rs1 rs2 imm) = ⟨3, c, u.rd, f3, rs1, rs2, u.func7, imm, w⟩ ∧
      Ports.drive t u w (.U op rd imm) = ⟨4, c, rd, u.func3, u.rs1, u.rs2, u.func7, imm, w⟩ ∧
      Ports.drive t u w (.J op rd imm) = ⟨5, c, rd, u.func3, u.rs1, u.rs2, u.func7, imm, w⟩) ∧
    Ports.drive t u w (.Unrecognized w) = ⟨7, u.opid, u.rd, u.func3, u.rs1, u.rs2, u.func7, u.imm, w⟩

/-- A consumer that shares the enumeration and reads only the ports the case makes meaningful gets the decoded value back,
whatever the unspecified ports carry; `kind` 6 and a code of no operation, under the default `opid` 10 to 15, are never
driven. The registry ranges over the enumeration (R7). -/
def Obligations.PortsReadBackTheDecodedValue : Prop :=
  ∀ (s t : State) (u : Ports t.opids.width), s.OpidsFit → step s = .next t →
    (t.ports u).read t.opids = .ok (decode s.registry s.word) ∧
    (t.ports u).kind ≠ 6 ∧ (t.ports u).raw = s.word ∧
    ((t.ports u).kind ≠ 7 → ∃ op, t.opids.code? op = some (t.ports u).opid) ∧
    (t.opids = opidsRV32I → (t.ports u).kind ≠ 7 → (t.ports u).opid.toNat < 10)

/-- R71, R80: the hardware (all extractors at work, one multiplexer per port selected by the registry row's format, a
five-way multiplexer for the immediate) drives the ports that carry `decode w`, for every registry over any
enumeration. -/
def Obligations.HardwareMultiplexersDriveTheDecodedValue : Prop :=
  ∀ (Op : Type) [DecidableEq Op] (t : OpidTable Op) (u : Ports t.width)
    (junk : Vector (BitVec t.width × BitVec 3) 128) (reg : Registry Op) (w : Word) (entry : Option (Op × FormatKind)),
    t.wf = true → t.covers reg = true →
    (Rom.ofRegistry t junk reg).lookup t (w.extractLsb 6 0) = .ok entry →
    hardwarePorts t u entry w = Ports.drive t u w (decode reg w)

/-! ### Bytes, streams and copies -/

/-- R25 (the spec's decision D11): the default collaborator's word has the byte at the lowest address as its low byte,
which therefore holds the opcode field; and whatever word a collaborator delivers, that word is decoded. The
collaborator's memory as a list and its second byte order are the model's (notes/assumptions/8.md). -/
def Obligations.FetchedWordIsDecoded : Prop :=
  (∀ (mem : List Host.Cell) (a : Nat) (b0 b1 b2 b3 : Byte),
    mem.lookup a = some b0 → mem.lookup (a + 1) = some b1 → mem.lookup (a + 2) = some b2 →
    mem.lookup (a + 3) = some b3 →
    ∃ w, fetchWord Config.fetchOrder mem a = some w ∧ w = b3 ++ b2 ++ b1 ++ b0 ∧ w.extractLsb 7 0 = b0 ∧
      w.extractLsb 6 0 = b0.extractLsb 6 0) ∧
  (∀ (order : FetchOrder) (mem : List Host.Cell) (a : Nat) (w : Word) (s : State),
    s.registry.wf = true → fetchWord order mem a = some w →
    step (s.fetchFrom order mem a) = .next { s with word := w, out := some (decode s.registry w) })

/-- R27, R34: a decode takes exactly the four bytes of one word, leaves the rest, and never takes fewer. The spec gives
`FETCH_ORDER` only its default, little-endian (spec/20_memory.md section 1); that it holds in a second byte order too,
big-endian, is the model's (PRESUMED, notes/assumptions/8.md). -/
def Obligations.DecodeTakesExactlyOneWordOfBytes : Prop :=
  ∀ (order : FetchOrder) (reg : Registry OpcodeId),
    (∀ (w : Word) (i : Instr) (rest : List Byte), decodeInstr reg w = .ok i →
      decodeBytes order reg (wordBytes order w ++ rest) = .ok (i, rest)) ∧
    (∀ (w : Word) (e : DecodeReject) (rest : List Byte), decodeInstr reg w = .error e →
      decodeBytes order reg (wordBytes order w ++ rest) = .error e) ∧
    (∀ bs : List Byte, bs.length < 4 → decodeBytes order reg bs = .error (.truncated bs.length))

/-- One block given any list of words answers `decode` of each, in order, and never stops (R31, R109). -/
def Obligations.StreamOfWordsDecodesWordByWord : Prop :=
  ∀ (ws : List Word) (s : State), s.registry.wf = true →
    ∃ t, decodeStream ws s = .next (t, ws.map (decode s.registry)) ∧ t.registry = s.registry

/-- R31, R105: however the words of a buffer are shared out among copies of the block, and in whatever order the copies'
results come back, putting them in index order gives `decode` of each word at its place. -/
def Obligations.SharedDecodingReassemblesInOrder : Prop :=
  ∀ (Op : Type) (reg : Registry Op) (ws : List Word) (shares : List (List (Nat × Word)))
    (results : List (Nat × Instruction Op)),
    shares.flatten.Perm (ws.zipIdx.map Prod.swap) →
    results.Perm (shares.map (decodeShare reg)).flatten →
    reassemble ws.length results = ws.map fun w => some (decode reg w)
end

