-- ==== Sys2Proof/Laws/Bits.lean ====
section
/-! SUPPORT. Bit-by-bit lemmas of the field cuts, the immediate patterns, the sign-extension unit and the encoder: what
each bit of a result is. -/

namespace Sys2Proof

theorem getLsbD_opcodeField (w : Word) (i : Nat) :
    (opcodeField w).getLsbD i = (decide (i < 7) && w.getLsbD i) := by
  simp only [opcodeField, BitVec.getLsbD_extractLsb, Nat.zero_add]

theorem getLsbD_rdField (w : Word) (i : Nat) :
    (rdField w).getLsbD i = (decide (i < 5) && w.getLsbD (7 + i)) := by
  simp only [rdField, BitVec.getLsbD_extractLsb]

theorem getLsbD_func3Field (w : Word) (i : Nat) :
    (func3Field w).getLsbD i = (decide (i < 3) && w.getLsbD (12 + i)) := by
  simp only [func3Field, BitVec.getLsbD_extractLsb]

theorem getLsbD_rs1Field (w : Word) (i : Nat) :
    (rs1Field w).getLsbD i = (decide (i < 5) && w.getLsbD (15 + i)) := by
  simp only [rs1Field, BitVec.getLsbD_extractLsb]

theorem getLsbD_rs2Field (w : Word) (i : Nat) :
    (rs2Field w).getLsbD i = (decide (i < 5) && w.getLsbD (20 + i)) := by
  simp only [rs2Field, BitVec.getLsbD_extractLsb]

theorem getLsbD_func7Field (w : Word) (i : Nat) :
    (func7Field w).getLsbD i = (decide (i < 7) && w.getLsbD (25 + i)) := by
  simp only [func7Field, BitVec.getLsbD_extractLsb]

theorem msb_iPattern (w : Word) : (iPattern w).msb = signBit w := by
  simp [BitVec.msb_eq_getLsbD_last, iPattern, signBit]

theorem msb_sPattern (w : Word) : (sPattern w).msb = signBit w := by
  simp only [BitVec.msb_eq_getLsbD_last, sPattern, signBit, BitVec.getLsbD_append, BitVec.getLsbD_extractLsb]
  simp

theorem msb_bPattern (w : Word) : (bPattern w).msb = signBit w := by
  simp only [BitVec.msb_eq_getLsbD_last, bPattern, signBit, BitVec.getLsbD_append, BitVec.getLsbD_extractLsb]
  simp

theorem msb_jPattern (w : Word) : (jPattern w).msb = signBit w := by
  simp only [BitVec.msb_eq_getLsbD_last, jPattern, signBit, BitVec.getLsbD_append, BitVec.getLsbD_extractLsb]
  simp

/-- Bit `i` of the sign-extension unit's result: the pattern below its width, the sign input above. -/
theorem getLsbD_signUnit {k : Nat} (hk : k ≤ 32) (sign : Bool) (v : BitVec k) (i : Nat) :
    (signUnit sign v).getLsbD i = (decide (i < 32) && if i < k then v.getLsbD i else sign) := by
  unfold signUnit
  rw [BitVec.getLsbD_setWidth, BitVec.getLsbD_append]
  by_cases hi : i < 32 <;> by_cases hik : i < k <;> simp [hi, hik]
  cases sign <;> simp
  omega

/-- Fed with the pattern's own top bit, the unit is the sign extension of R9. -/
theorem signUnit_msb {k : Nat} (hk : k ≤ 32) (v : BitVec k) : signUnit v.msb v = v.signExtend 32 := by
  apply BitVec.eq_of_getLsbD_eq
  intro i hi
  rw [getLsbD_signUnit hk, BitVec.getLsbD_signExtend]

theorem iImm_eq (w : Word) : iImm w = (iPattern w).signExtend 32 := by
  rw [iImm, ← msb_iPattern, signUnit_msb (by omega)]

theorem sImm_eq (w : Word) : sImm w = (sPattern w).signExtend 32 := by
  rw [sImm, ← msb_sPattern, signUnit_msb (by omega)]

theorem bImm_eq (w : Word) : bImm w = (bPattern w).signExtend 32 := by
  rw [bImm, ← msb_bPattern, signUnit_msb (by omega)]

theorem jImm_eq (w : Word) : jImm w = (jPattern w).signExtend 32 := by
  rw [jImm, ← msb_jPattern, signUnit_msb (by omega)]

end Sys2Proof
end

