-- ==== Sys2Proof/Laws/PerInstr.lean ====
section
/-! SUPPORT. Statements made per instruction. `OpcodeBits`: the low seven bits of an instruction's word are its row's
opcode value (spec/30_encoding.md R35, spec/40_opcode_registry.md R62). -/

namespace Sys2Proof.Laws.OpcodeBits

/-- The operation of an instruction. -/
def opcodeId : Instr → OpcodeId
  | .load _ _ _ _ => .LOAD
  | .miscMem _ _ _ _ => .MISC_MEM
  | .addi _ _ _ _ => .ADDI
  | .auipc _ _ => .AUIPC
  | .store _ _ _ _ => .STORE
  | .op _ _ _ _ _ => .OP
  | .lui _ _ => .LUI
  | .branch _ _ _ _ => .BRANCH
  | .jalr _ _ _ _ => .JALR
  | .jal _ _ => .JAL

/-- The opcode field of the instruction's word is a row of R62 with the instruction's operation. -/
def Statement (i : Instr) : Prop :=
  ∃ fmt, (opcodeField (encode i), opcodeId i, fmt) ∈ rowsRV32I

/-- The low seven bits of a concatenation are its last part. -/
theorem opcodeField_append (v : BitVec 25) (opc : Opcode7) : opcodeField (v ++ opc) = opc := by
  apply BitVec.eq_of_getLsbD_eq
  intro i hi
  simp only [opcodeField, BitVec.getLsbD_extractLsb, BitVec.getLsbD_append]
  simp [hi]

theorem load (rd : RegIndex) (f3 : Func3) (rs1 : RegIndex) (imm : BitVec 12) : Statement (.load rd f3 rs1 imm) :=
  ⟨.I, by rw [encode, encodeI, opcodeField_append]; simp [rowsRV32I, opcodeId]⟩

theorem miscMem (rd : RegIndex) (f3 : Func3) (rs1 : RegIndex) (imm : BitVec 12) : Statement (.miscMem rd f3 rs1 imm) :=
  ⟨.I, by rw [encode, encodeI, opcodeField_append]; simp [rowsRV32I, opcodeId]⟩

theorem addi (rd : RegIndex) (f3 : Func3) (rs1 : RegIndex) (imm : BitVec 12) : Statement (.addi rd f3 rs1 imm) :=
  ⟨.I, by rw [encode, encodeI, opcodeField_append]; simp [rowsRV32I, opcodeId]⟩

theorem auipc (rd : RegIndex) (imm : BitVec 20) : Statement (.auipc rd imm) :=
  ⟨.U, by rw [encode, encodeU, opcodeField_append]; simp [rowsRV32I, opcodeId]⟩

theorem store (f3 : Func3) (rs1 rs2 : RegIndex) (imm : BitVec 12) : Statement (.store f3 rs1 rs2 imm) :=
  ⟨.S, by rw [encode, encodeS, opcodeField_append]; simp [rowsRV32I, opcodeId]⟩

theorem op (rd : RegIndex) (f3 : Func3) (rs1 rs2 : RegIndex) (f7 : Func7) : Statement (.op rd f3 rs1 rs2 f7) :=
  ⟨.R, by rw [encode, encodeR, opcodeField_append]; simp [rowsRV32I, opcodeId]⟩

theorem lui (rd : RegIndex) (imm : BitVec 20) : Statement (.lui rd imm) :=
  ⟨.U, by rw [encode, encodeU, opcodeField_append]; simp [rowsRV32I, opcodeId]⟩

theorem branch (f3 : Func3) (rs1 rs2 : RegIndex) (imm : BitVec 13) : Statement (.branch f3 rs1 rs2 imm) :=
  ⟨.B, by rw [encode, encodeB, opcodeField_append]; simp [rowsRV32I, opcodeId]⟩

theorem jalr (rd : RegIndex) (f3 : Func3) (rs1 : RegIndex) (imm : BitVec 12) : Statement (.jalr rd f3 rs1 imm) :=
  ⟨.I, by rw [encode, encodeI, opcodeField_append]; simp [rowsRV32I, opcodeId]⟩

theorem jal (rd : RegIndex) (imm : BitVec 21) : Statement (.jal rd imm) :=
  ⟨.J, by rw [encode, encodeJ, opcodeField_append]; simp [rowsRV32I, opcodeId]⟩

end Sys2Proof.Laws.OpcodeBits
end

