-- ==== Sys2Proof/Laws/Registry.lean ====
section
/-! SUPPORT. The registry: what a slot of a written-out registry holds, its assigned entries, and the check `wf` against
the words of spec/40_opcode_registry.md R60. -/

namespace Sys2Proof

theorem classify_ofRows {Op : Type} (rows : List (Opcode7 × Op × FormatKind)) (b : Opcode7) :
    classify (.ofRows rows) b = rows.lookup b := by
  simp [classify, Registry.ofRows]

theorem mem_entries {Op : Type} (reg : Registry Op) (e : Op × FormatKind) :
    e ∈ reg.entries ↔ ∃ b, classify reg b = some e := by
  unfold Registry.entries classify
  rw [List.mem_filterMap]
  constructor
  · rintro ⟨a, ha, hae⟩
    obtain ⟨i, hi, rfl⟩ := List.mem_iff_getElem.mp ha
    have hi' : i < 128 := by simpa using hi
    refine ⟨BitVec.ofNat 7 i, ?_⟩
    have : (BitVec.ofNat 7 i).toNat = i := by simp; omega
    simp only [this]
    simpa using hae
  · rintro ⟨b, hb⟩
    exact ⟨some e, hb ▸ by simp, rfl⟩

/-- The check is R60's `wf`. -/
theorem Registry.wf_iff {Op : Type} [DecidableEq Op] (reg : Registry Op) :
    reg.wf = true ↔
      ∀ a b op f g, classify reg a = some (op, f) → classify reg b = some (op, g) → f = g := by
  simp only [Registry.wf, List.all_eq_true, decide_eq_true_eq, mem_entries]
  constructor
  · intro h a b op f g ha hb
    exact h (op, f) ⟨a, ha⟩ (op, g) ⟨b, hb⟩ rfl
  · rintro h ⟨op, f⟩ ⟨a, ha⟩ ⟨op', g⟩ ⟨b, hb⟩ hop
    obtain rfl : op = op' := hop
    exact h a b op f g ha hb

/-- Under an encoding, the operation of an operation's code is the operation. -/
theorem OpidTable.op?_of_code? {Op : Type} [DecidableEq Op] {t : OpidTable Op} (hwf : t.wf = true) {op : Op}
    {c : BitVec t.width} (h : t.code? op = some c) : t.op? c = some op := by
  obtain ⟨-, hn⟩ := of_decide_eq_true hwf
  unfold OpidTable.code? at h
  unfold OpidTable.op?
  revert h hn
  generalize t.codes = l
  intro h hn
  induction l with
  | nil => cases h
  | cons p l ih =>
    obtain ⟨op', c'⟩ := p
    simp only [List.map_cons, List.nodup_cons] at hn
    rw [List.lookup_cons] at h
    rw [List.find?_cons]
    by_cases hop : op = op'
    · subst hop
      simp_all
    · have hop' : (op == op') = false := by simpa using hop
      rw [hop'] at h
      have hmem : c ∈ l.map Prod.snd := by
        obtain ⟨l₁, l₂, rfl, -⟩ := List.lookup_eq_some_iff.mp h
        simp
      have hc : (c' == c) = false := by
        simp only [beq_eq_false_iff_ne]
        rintro rfl
        exact hn.1 hmem
      simp only [hc]
      exact ih h hn.2

/-- An operation of the registry has a code in an enumeration that the registry ranges over. -/
theorem OpidTable.code?_of_covers {Op : Type} [DecidableEq Op] {t : OpidTable Op} {reg : Registry Op}
    (h : t.covers reg = true) {b : Opcode7} {op : Op} {fmt : FormatKind} (hc : classify reg b = some (op, fmt)) :
    ∃ c, t.code? op = some c := by
  have := List.all_eq_true.mp h (op, fmt) ((mem_entries reg _).mpr ⟨b, hc⟩)
  exact Option.isSome_iff_exists.mp this

theorem registryRV32I_wf : registryRV32I.wf = true := by decide

theorem registryDoc_wf : registryDoc.wf = true := by decide

theorem opidsRV32I_wf : opidsRV32I.wf = true := by decide

theorem opidsRV32I_covers_registryRV32I : opidsRV32I.covers registryRV32I = true := by decide

theorem opidsRV32I_covers_registryDoc : opidsRV32I.covers registryDoc = true := by decide

end Sys2Proof
end

