-- ==== Sys2Proof/Laws/State.lean ====
section
/-! SUPPORT. One lemma per field of State and per update, so that no proof unfolds a record update. -/

namespace Sys2Proof.Machine

/-- Presenting the word that is there already changes nothing (R106). -/
@[simp] theorem State.present_self (s : State) : s.present s.word = s := by simp [State.present]

/-- Presenting another word unsettles the outputs (R108). -/
theorem State.present_of_ne {w : Word} {s : State} (h : w ≠ s.word) :
    s.present w = { s with word := w, out := none } := by simp [State.present, h]

@[simp] theorem State.present_registry (w : Word) (s : State) : (s.present w).registry = s.registry := by
  unfold State.present; split <;> rfl
@[simp] theorem State.present_opids (w : Word) (s : State) : (s.present w).opids = s.opids := by
  unfold State.present; split <;> rfl
@[simp] theorem State.present_word (w : Word) (s : State) : (s.present w).word = w := by
  unfold State.present; split <;> simp_all
theorem State.present_out (w : Word) (s : State) :
    (s.present w).out = if w = s.word then s.out else none := by
  unfold State.present; split <;> rfl

@[simp] theorem State.deliver_registry (v : Instruction OpcodeId) (s : State) :
    (s.deliver v).registry = s.registry := rfl
@[simp] theorem State.deliver_opids (v : Instruction OpcodeId) (s : State) : (s.deliver v).opids = s.opids := rfl
@[simp] theorem State.deliver_word (v : Instruction OpcodeId) (s : State) : (s.deliver v).word = s.word := rfl
@[simp] theorem State.deliver_out (v : Instruction OpcodeId) (s : State) : (s.deliver v).out = some v := rfl

@[simp] theorem State.reportUnrecognized_registry (s : State) : s.reportUnrecognized.registry = s.registry := rfl
@[simp] theorem State.reportUnrecognized_opids (s : State) : s.reportUnrecognized.opids = s.opids := rfl
@[simp] theorem State.reportUnrecognized_word (s : State) : s.reportUnrecognized.word = s.word := rfl
@[simp] theorem State.reportUnrecognized_out (s : State) :
    s.reportUnrecognized.out = some (.Unrecognized s.word) := rfl

@[simp] theorem State.elapse_registry (t : Nat) (s : State) : (s.elapse t).registry = s.registry := by
  unfold State.elapse; split <;> rfl
@[simp] theorem State.elapse_opids (t : Nat) (s : State) : (s.elapse t).opids = s.opids := by
  unfold State.elapse; split <;> rfl
@[simp] theorem State.elapse_word (t : Nat) (s : State) : (s.elapse t).word = s.word := by
  unfold State.elapse; split <;> rfl
theorem State.elapse_out (t : Nat) (s : State) :
    (s.elapse t).out = if Config.tDecode ≤ t then some (decode s.registry s.word) else s.out := by
  unfold State.elapse; split <;> rfl

@[simp] theorem State.withFetchWord_registry (s : State) (n w : Nat) :
    (s.withFetchWord n w).registry = s.registry := State.present_registry _ _
@[simp] theorem State.withFetchWord_opids (s : State) (n w : Nat) :
    (s.withFetchWord n w).opids = s.opids := State.present_opids _ _
@[simp] theorem State.withFetchWord_word (s : State) (n w : Nat) :
    (s.withFetchWord n w).word = tableWord n w := State.present_word _ _

@[simp] theorem State.reset_registry : State.reset.registry = registryRV32I := rfl
@[simp] theorem State.reset_opids : State.reset.opids = opidsRV32I := rfl
@[simp] theorem State.reset_word : State.reset.word = 0#32 := rfl

/-- A state is its four fields. -/
theorem State.ext_fields {s t : State} (hr : s.registry = t.registry) (hc : s.opids = t.opids) (hw : s.word = t.word)
    (ho : s.out = t.out) : s = t := by
  cases s; cases t; simp_all

/-- Delivering twice keeps the last value only: the outputs remember nothing (R18). -/
@[simp] theorem State.deliver_deliver (v v' : Instruction OpcodeId) (s : State) :
    (s.deliver v).deliver v' = s.deliver v' := rfl

/-- Once a value is delivered, what the outputs were when the word was presented is forgotten (R18). -/
@[simp] theorem State.deliver_present (v : Instruction OpcodeId) (w : Word) (s : State) :
    (s.present w).deliver v = { s with word := w, out := some v } := by
  unfold State.present; split <;> simp_all [State.deliver]

end Sys2Proof.Machine
end

