-- ==== Sys2Proof/Laws/Step.lean ====
section
/-! SUPPORT. What a decoding and a step can do, said once. -/

namespace Sys2Proof

/-- Everything a successful reading of a word says: the registry holds the table's own entry for the opcode field, and the
instruction is that row with its fields cut out. -/
theorem decodeInstr_ok {reg : Registry OpcodeId} {w : Word} {i : Instr} (h : decodeInstr reg w = .ok i) :
    ∃ op fmt, classify reg (opcodeField w) = some (op, fmt) ∧
      classify registryRV32I (opcodeField w) = some (op, fmt) ∧ instrOf op w = some i := by
  unfold decodeInstr at h
  split at h
  · cases h
  · rename_i op fmt hc
    split at h
    · rename_i hr
      split at h
      · cases h
        exact ⟨op, fmt, hc, hr, ‹_›⟩
      · cases h
    · cases h

/-- The decoder rejects a whole word only for its opcode field, and by the right name. -/
theorem decodeInstr_error {reg : Registry OpcodeId} {w : Word} {e : DecodeReject} (h : decodeInstr reg w = .error e) :
    (e = .unknownOpcode w ∧ classify reg (opcodeField w) = none) ∨
    (∃ op fmt, e = .otherEntry op fmt ∧ classify reg (opcodeField w) = some (op, fmt)) := by
  unfold decodeInstr at h
  split at h
  · cases h
    exact .inl ⟨rfl, ‹_›⟩
  · rename_i op fmt hc
    split at h
    · split at h
      · cases h
      · cases h
        exact .inr ⟨op, fmt, rfl, hc⟩
    · cases h
      exact .inr ⟨op, fmt, rfl, hc⟩

/-- The default registry's entry for an operation gives it its own format. -/
theorem format_of_default {b : Opcode7} {op : OpcodeId} {fmt : FormatKind}
    (h : classify registryRV32I b = some (op, fmt)) : (b, op, fmt) ∈ rowsRV32I := by
  revert h
  unfold registryRV32I
  rw [classify_ofRows]
  simp only [rowsRV32I, List.lookup_cons, List.lookup_nil]
  repeat'
    split
    · rename_i hb
      intro h
      obtain rfl : b = _ := by simpa using hb
      cases h
      simp
  intro h
  cases h

namespace Machine

/-- Everything a step can do. -/
theorem step_cases (s : State) :
    (s.registry.wf = false ∧ step s = .refused .registryIllFormed) ∨
    (s.registry.wf = true ∧ ∃ i, decodeInstr s.registry s.word = .ok i ∧ step s = exec i s) ∨
    (s.registry.wf = true ∧ classify s.registry (opcodeField s.word) = none ∧ step s = .next s.reportUnrecognized) ∨
    (s.registry.wf = true ∧ ∃ op fmt, classify s.registry (opcodeField s.word) = some (op, fmt) ∧
      step s = .next (s.deliver (extract fmt op s.word))) := by
  unfold step
  cases hwf : s.registry.wf with
  | false => simp
  | true =>
    cases hd : decodeInstr s.registry s.word with
    | ok i => simp
    | error e =>
      obtain ⟨rfl, hc⟩ | ⟨op, fmt, rfl, hc⟩ := decodeInstr_error hd
      · simp [hc]
      · simp [hc]

/-- Everything an instruction can do: the outputs settle on one value and nothing else changes. -/
theorem exec_cases (i : Instr) (s : State) : ∃ v, exec i s = .next (s.deliver v) := by
  cases i <;> exact ⟨_, rfl⟩

end Machine
end Sys2Proof
end

