-- ==== Sys2Proof/Machine/Flags.lean ====
section
/-! DEFINITION. The flag computations of the block: there are none. "Flags and condition codes: the block has none. It
sets no flag and reads no flag" (spec/10_state.md R13), and every rule R85 to R95 says "Flags: none". This file holds no
definition, and State holds no flag. -/
end

