-- ==== Sys2Proof/Tests/Slice0.lean ====
section
/-! SUPPORT. The model's own tests. Expected values come from spec/95_test_vectors.md (the section is named at each group)
or from the encoding tables of spec/30_encoding.md, never from the model. Then, for every statement with hypotheses, a
witness that meets them together. -/

namespace Sys2Proof.Tests

open Sys2Proof Sys2Proof.Machine

/-! ### WellFormed: one ill-formed term for each check -/

theorem test_branch_offset_bit_zero_refused : (Instr.branch 0 1 2 0b0000000010001#13).wellFormed = false := by decide
theorem test_jal_offset_bit_zero_refused : (Instr.jal 1 0b000000000000000000101#21).wellFormed = false := by decide
theorem test_branch_even_offset_accepted : (Instr.branch 0 1 2 0b0000000010000#13).wellFormed = true := by decide
theorem test_jalr_odd_offset_accepted : (Instr.jalr 1 7 5 0b000000000001#12).wellFormed = true := by decide

/-! ### Decoding: a word of every row written out field by field from the tables R36 to R41, high bits first -/

/-- R37: imm[11:0], rs1, func3, rd, opcode. -/
theorem test_decode_load :
    decodeInstr registryRV32I (0b000000001000#12 ++ 0b00010#5 ++ 0b010#3 ++ 0b00101#5 ++ 0b0000011#7) =
      .ok (.load 5 2 2 8) := by decide
theorem test_decode_miscMem :
    decodeInstr registryRV32I (0b100000110011#12 ++ 0b00000#5 ++ 0b000#3 ++ 0b00000#5 ++ 0b0001111#7) =
      .ok (.miscMem 0 0 0 0x833) := by decide
theorem test_decode_addi :
    decodeInstr registryRV32I (0b111111111111#12 ++ 0b00110#5 ++ 0b000#3 ++ 0b00101#5 ++ 0b0010011#7) =
      .ok (.addi 5 0 6 0xFFF) := by decide
/-- R40: imm[31:12], rd, opcode. -/
theorem test_decode_auipc :
    decodeInstr registryRV32I (0b11111111111111111111#20 ++ 0b00001#5 ++ 0b0010111#7) =
      .ok (.auipc 1 0xFFFFF) := by decide
/-- R38: imm[11:5], rs2, rs1, func3, imm[4:0], opcode. -/
theorem test_decode_store :
    decodeInstr registryRV32I (0b1111110#7 ++ 0b00001#5 ++ 0b00010#5 ++ 0b010#3 ++ 0b01100#5 ++ 0b0100011#7) =
      .ok (.store 2 2 1 0b111111001100) := by decide
/-- R36: func7, rs2, rs1, func3, rd, opcode. -/
theorem test_decode_op :
    decodeInstr registryRV32I (0b0100000#7 ++ 0b01011#5 ++ 0b01010#5 ++ 0b101#3 ++ 0b01100#5 ++ 0b0110011#7) =
      .ok (.op 12 5 10 11 0x20) := by decide
theorem test_decode_lui :
    decodeInstr registryRV32I (0b00010010001101000101#20 ++ 0b00001#5 ++ 0b0110111#7) =
      .ok (.lui 1 0x12345) := by decide
/-- R39: imm[12], imm[10:5], rs2, rs1, func3, imm[4:1], imm[11], opcode; every group of the offset differs. -/
theorem test_decode_branch :
    decodeInstr registryRV32I
      (0b0#1 ++ 0b110101#6 ++ 0b00010#5 ++ 0b00001#5 ++ 0b110#3 ++ 0b0110#4 ++ 0b1#1 ++ 0b1100011#7) =
      .ok (.branch 6 1 2 0b0111010101100) := by decide
theorem test_decode_jalr :
    decodeInstr registryRV32I (0b111111111100#12 ++ 0b00101#5 ++ 0b000#3 ++ 0b00001#5 ++ 0b1100111#7) =
      .ok (.jalr 1 0 5 0xFFC) := by decide
/-- R41: imm[20], imm[10:1], imm[11], imm[19:12], rd, opcode; every group of the offset differs. -/
theorem test_decode_jal :
    decodeInstr registryRV32I
      (0b1#1 ++ 0b0000000110#10 ++ 0b1#1 ++ 0b10100101#8 ++ 0b00001#5 ++ 0b1101111#7) =
      .ok (.jal 1 0b110100101100000001100) := by decide
theorem test_decode_rejects_unknown_by_name :
    decodeInstr registryRV32I 0x00000073 = .error (.unknownOpcode 0x00000073) := by decide
theorem test_decode_rejects_truncated_by_name :
    decodeBytes .little registryRV32I [0x13, 0x00, 0x00] = .error (.truncated 3) := by decide
theorem test_decode_bytes_little_endian :
    decodeBytes .little registryRV32I [0x83, 0x22, 0x81, 0x00, 0x73] = .ok (.load 5 2 2 8, [0x73]) := by decide

/-! ### One step: the vectors of section 2 that set one bit group alone or all of them -/

/-- The value that one step delivers for a word presented after reset. -/
def delivered (w : Word) : Option (Instruction OpcodeId) :=
  match step (State.reset.present w) with
  | .next t => t.out
  | .fault _ => none
  | .refused _ => none

theorem test_load_negative_offset : delivered 0xFFF04383 = some (.I .LOAD 7 4 0 0xFFFFFFFF) := by decide
theorem test_miscMem_fence_tso : delivered 0x8330000F = some (.I .MISC_MEM 0 0 0 0xFFFFF833) := by decide
theorem test_miscMem_fence_i : delivered 0x0000100F = some (.I .MISC_MEM 0 1 0 0) := by decide
theorem test_addi_smallest : delivered 0x80000093 = some (.I .ADDI 1 0 0 0xFFFFF800) := by decide
theorem test_addi_srai_keeps_function_bits : delivered 0x4032D293 = some (.I .ADDI 5 5 5 1027) := by decide
theorem test_auipc_top_bit : delivered 0xFFFFF097 = some (.U .AUIPC 1 0xFFFFF000) := by decide
theorem test_store_largest : delivered 0x7E000FA3 = some (.S .STORE 0 0 0 2047) := by decide
theorem test_store_all_ones : delivered 0xFFFFFFA3 = some (.S .STORE 7 31 31 0xFFFFFFFF) := by decide
theorem test_op_all_ones : delivered 0xFFFFFFB3 = some (.R .OP 31 7 31 31 0x7F) := by decide
theorem test_op_div_word : delivered 0x02A5C533 = some (.R .OP 10 4 11 10 0x01) := by decide
theorem test_lui_only_bit_31 : delivered 0x80000037 = some (.U .LUI 0 0x80000000) := by decide
theorem test_branch_w7_is_imm11 : delivered 0x000000E3 = some (.B .BRANCH 0 0 0 2048) := by decide
theorem test_branch_w31_is_sign : delivered 0x80000063 = some (.B .BRANCH 0 0 0 0xFFFFF000) := by decide
theorem test_jalr_reserved_func3 : delivered 0x00007067 = some (.I .JALR 0 7 0 0) := by decide
theorem test_jal_w20_is_imm11 : delivered 0x0010006F = some (.J .JAL 0 2048) := by decide
theorem test_jal_upper_group : delivered 0x000FF06F = some (.J .JAL 0 0x000FF000) := by decide
theorem test_compressed_parcel_unrecognized : delivered 0x00004501 = some (.Unrecognized 0x00004501) := by decide

/-- Section 2.10: the registries differ on a LUI word. -/
theorem test_doc_registry_lui : decode registryDoc 0x123450B7 = .Unrecognized 0x123450B7 := by decide

/-- Section 2.11: the ports of `sw x1, 12(x2)`, with ones on the unspecified ports. -/
theorem test_ports_store :
    Ports.drive opidsRV32I ⟨7, 15, 31, 7, 31, 31, 127, 0xFFFFFFFF, 0xFFFFFFFF⟩ 0x00112623
      (decode registryRV32I 0x00112623) =
      ⟨2, 4, 31, 2, 2, 1, 127, 12, 0x00112623⟩ := by decide

/-- Section 4, program P4: the block goes on after every Unrecognized. -/
theorem test_program_p4 :
    (match decodeStream [0x00100293, 0x00000073, 0x0000000B, 0x00000000, 0x00004501] State.reset with
      | .next (_, vs) => vs
      | .fault _ => []
      | .refused _ => []) =
    [.I .ADDI 5 0 0 1, .Unrecognized 0x73, .Unrecognized 0x0B, .Unrecognized 0, .Unrecognized 0x4501] := by decide

/-- R60, U3: a registry with one operation in two formats is refused. -/
def twoFormats : Registry OpcodeId := .ofRows [(0x03#7, .LOAD, .I), (0x0B#7, .LOAD, .R)]

theorem test_ill_formed_registry_refused :
    step { State.reset with registry := twoFormats } = .refused .registryIllFormed := by rfl

/-- R52: another registry decides custom-0 by its own table. -/
theorem test_other_registry_entry :
    decodeInstr (.ofRows [(0x0B#7, .OP, .R)]) 0x40B5050B = .error (.otherEntry .OP .R) ∧
    decode (.ofRows [(0x0B#7, OpcodeId.OP, .R)]) 0x40B5050B = .R .OP 10 0 10 11 0x20 := by decide

/-- U4: a registry over another enumeration, one further operation with a 5-bit code of its own. -/
def customState : State :=
  { State.reset with registry := .ofRows [(0x0B#7, .other 0, .R)], opids := { width := 5, codes := [(.other 0, 17)] } }

/-- R36, R52: custom-0 word 0x40B5050B laid out as an R word; the default's own rows are unassigned there. -/
theorem test_other_enumeration_steps :
    step (customState.present 0x40B5050B) =
      .next { customState with word := 0x40B5050B, out := some (.R (.other 0) 10 0 10 11 0x20) } ∧
    step (customState.present 0x00812283) =
      .next { customState with word := 0x00812283, out := some (.Unrecognized 0x00812283) } := ⟨by rfl, by rfl⟩
theorem test_other_enumeration_drives_its_own_code :
    (Ports.drive customState.opids ⟨0, 0, 0, 0, 0, 0, 0, 0, 0⟩ 0x40B5050B
      (decode customState.registry 0x40B5050B)).opid = 17#5 := by rfl

/-- R106: the word that is on the port already is no change, so settled outputs stay; another word unsettles them. -/
theorem test_presenting_the_same_word_keeps_the_outputs :
    (State.reset.present 0).out = some (.Unrecognized 0) ∧ (State.reset.present 1).out = none := by decide

/-- U6: a present table row with a format code that names no format. -/
theorem test_rom_row_without_format :
    (RomRow.mk true 0 6).read opidsRV32I = .error (.formatNeverDriven 6) ∧
    (RomRow.mk false 15 7).read opidsRV32I = .ok none ∧
    (RomRow.mk true 10 0).read opidsRV32I = .error (.opidNeverDriven 10) := by decide

/-- U5: `kind` 6 is outside the spec. -/
theorem test_ports_kind_six_refused :
    (Ports.mk 6 0 0 0 0 0 0 0 0).read opidsRV32I = .error .kindNeverDriven := by decide

/-! ### Witnesses: states and operands that meet the hypotheses of each statement together -/

theorem witness_wellFormed_boundary_offsets :
    (Instr.branch 1 5 0 0x1FFE).wellFormed = true ∧ (Instr.jal 0 0x1FFFFE).wellFormed = true ∧
    (Instr.branch 0 0 0 0x1000).wellFormed = true ∧ (Instr.jal 31 0x100000).wellFormed = true := by decide

theorem witness_decodeInstr_ok : decodeInstr registryDoc 0xFFF30293 = .ok (.addi 5 0 6 0xFFF) := by decide

theorem witness_same_entry_other_word :
    classify registryRV32I ((0x00812283 : Word).extractLsb 6 0) = some (.LOAD, .I) ∧
    (0x00812203 : Word).extractLsb 6 0 = (0x00812283 : Word).extractLsb 6 0 ∧ (0x00812283 : Word) ≠ 0x00812203 := by
  decide

theorem witness_unassigned_slot :
    (0x73#7 : Opcode7) ∉ [0x03#7, 0x0F#7, 0x13#7, 0x17#7, 0x23#7, 0x33#7, 0x37#7, 0x63#7, 0x67#7, 0x6F#7] := by decide

theorem witness_two_formats :
    classify twoFormats 0x03 = some (.LOAD, .I) ∧ classify twoFormats 0x0B = some (.LOAD, .R) ∧
    FormatKind.I ≠ FormatKind.R := by decide

/-- A block with the alternative registry. -/
def docState : State := { registry := registryDoc, opids := opidsRV32I, word := 0, out := none }

theorem witness_doc_words :
    docState.registry = registryDoc ∧ (0xFFF30293 : Word).extractLsb 6 0 = 0x13#7 ∧
    (0x123450B7 : Word).extractLsb 6 0 ≠ 0x13#7 := ⟨rfl, by decide, by decide⟩

theorem witness_rom_present_row :
    opidsRV32I.wf = true ∧ opidsRV32I.covers registryRV32I = true ∧ opidsRV32I.covers registryDoc = true ∧
    (Rom.ofRegistry opidsRV32I (Vector.replicate 128 (15, 7)) registryRV32I).rows[3].present = true ∧
    (Rom.ofRegistry opidsRV32I (Vector.replicate 128 (15, 7)) registryRV32I).rows[0x6F].present = true := by decide

theorem witness_other_enumeration_fits :
    customState.registry.wf = true ∧ customState.OpidsFit ∧
    (Rom.ofRegistry customState.opids (Vector.replicate 128 (31, 7)) customState.registry).lookup customState.opids
      ((0x40B5050B : Word).extractLsb 6 0) = .ok (some (.other 0, .R)) :=
  ⟨by decide, ⟨by decide, by decide⟩, by decide⟩

/-- The first and the last code of the default, and a code of another enumeration. -/
theorem witness_opid_codes :
    opidsRV32I.code? .LOAD = some 0 ∧ opidsRV32I.code? .JAL = some 9 ∧
    customState.opids.code? (.other 0) = some 17#5 := ⟨by rfl, by rfl, by rfl⟩

theorem witness_sign_widths : (12 ∈ [12, 13, 21]) ∧ (13 ∈ [12, 13, 21]) ∧ (21 ∈ [12, 13, 21]) := by decide

/-- Each clause about a format's immediate has a word of that format, at the end of its range. -/
theorem witness_formats_of_decoded_values :
    (decode registryRV32I 0x7E000FE3).format = some .B ∧ (decode registryRV32I 0x7E000FE3).imm? = some 4094 ∧
    (decode registryRV32I 0x8000006F).format = some .J ∧ (decode registryRV32I 0x8000006F).imm? = some 0xFFF00000 ∧
    (decode registryRV32I 0x7FFFFFB7).format = some .U ∧ (decode registryRV32I 0x7FFFFFB7).imm? = some 0x7FFFF000 ∧
    (decode registryRV32I 0xFFFFFFB3).rs2? = some 31 ∧
    decode registryRV32I 0xFFFFFFFF = .Unrecognized 0xFFFFFFFF := by decide

/-- Reset meets the hypotheses of every statement about the words of a row, each row with a word of its own. -/
theorem witness_rows_of_the_default_registry :
    State.reset.registry.wf = true ∧
    (classify State.reset.registry 0x03 = some (.LOAD, .I) ∧ (0xFFF04383 : Word).extractLsb 6 0 = 0x03#7) ∧
    (classify State.reset.registry 0x0F = some (.MISC_MEM, .I) ∧ (0x8330000F : Word).extractLsb 6 0 = 0x0F#7) ∧
    (classify State.reset.registry 0x13 = some (.ADDI, .I) ∧ (0x80000013 : Word).extractLsb 6 0 = 0x13#7) ∧
    (classify State.reset.registry 0x17 = some (.AUIPC, .U) ∧ (0xFFFFF097 : Word).extractLsb 6 0 = 0x17#7) ∧
    (classify State.reset.registry 0x23 = some (.STORE, .S) ∧ (0x80000023 : Word).extractLsb 6 0 = 0x23#7) ∧
    (classify State.reset.registry 0x33 = some (.OP, .R) ∧ (0xFFFFFFB3 : Word).extractLsb 6 0 = 0x33#7) ∧
    (classify State.reset.registry 0x37 = some (.LUI, .U) ∧ (0x80000037 : Word).extractLsb 6 0 = 0x37#7) ∧
    (classify State.reset.registry 0x63 = some (.BRANCH, .B) ∧ (0x7E000FE3 : Word).extractLsb 6 0 = 0x63#7) ∧
    (classify State.reset.registry 0x67 = some (.JALR, .I) ∧ (0xFFC280E7 : Word).extractLsb 6 0 = 0x67#7) ∧
    (classify State.reset.registry 0x6F = some (.JAL, .J) ∧ (0x7FFFFFEF : Word).extractLsb 6 0 = 0x6F#7) ∧
    (classify State.reset.registry ((0x00000073 : Word).extractLsb 6 0) = none) := by decide

theorem witness_step_runs :
    (State.reset.present 0x00812283).registry.wf = true ∧
    decodeInstr (State.reset.present 0x00812283).registry (State.reset.present 0x00812283).word = .ok (.load 5 2 2 8) ∧
    decodeInstr State.reset.registry (BitVec.ofNat 32 (0x00812283 % 2 ^ 32)) = .ok (.load 5 2 2 8) := by decide

theorem witness_invariant : docState.Inv := by
  refine ⟨registryDoc_wf, ⟨opidsRV32I_wf, opidsRV32I_covers_registryDoc⟩, fun v h => ?_⟩
  cases h

theorem witness_next_state :
    step (State.reset.present 0x00812283) =
      .next { State.reset with word := 0x00812283, out := some (.I .LOAD 5 2 2 8) } ∧
    exec (.load 5 2 2 8) docState = .next { docState with out := some (.I .LOAD 5 2 2 8) } := ⟨by rfl, by rfl⟩

theorem witness_stream :
    decodeStream [0x00812283] State.reset =
      .next ({ State.reset with word := 0x00812283, out := some (.I .LOAD 5 2 2 8) }, [.I .LOAD 5 2 2 8]) := by rfl

theorem witness_same_word_other_outputs :
    State.reset.registry = { State.reset with out := none }.registry ∧
    State.reset.opids = { State.reset with out := none }.opids ∧
    State.reset.word = { State.reset with out := none }.word ∧
    State.reset.out ≠ { State.reset with out := none }.out := ⟨rfl, rfl, rfl, by decide⟩

theorem witness_settled_time :
    State.reset.registry.wf = true ∧ Config.tDecode ≤ Config.tDecode ∧ (1 : Word) ≠ State.reset.word :=
  ⟨registryRV32I_wf, Nat.le_refl _, by decide⟩

theorem witness_rom_lookup :
    (Rom.ofRegistry opidsRV32I (Vector.replicate 128 (0, 0)) registryRV32I).lookup opidsRV32I
      ((0x00112623 : Word).extractLsb 6 0) =
      .ok (some (.STORE, .S)) ∧
    (Rom.ofRegistry opidsRV32I (Vector.replicate 128 (15, 7)) registryRV32I).lookup opidsRV32I
      ((0x00000073 : Word).extractLsb 6 0) =
      .ok none := by decide

/-- Four bytes of a collaborator's memory: `lw x5, 8(x2)` at address 4. -/
def fourBytes : List Host.Cell := [(4, 0x83), (5, 0x22), (6, 0x81), (7, 0x00)]

theorem witness_fetch :
    fourBytes.lookup 4 = some 0x83 ∧ fourBytes.lookup (4 + 1) = some 0x22 ∧ fourBytes.lookup (4 + 2) = some 0x81 ∧
    fourBytes.lookup (4 + 3) = some 0x00 ∧ fetchWord .big fourBytes 4 = some 0x83228100 ∧
    fetchWord .little fourBytes 4 = some 0x00812283 := by decide

theorem witness_short_bytes :
    ([0x13, 0x00, 0x00] : List Byte).length < 4 ∧ decodeInstr registryRV32I 0x73 = .error (.unknownOpcode 0x73) := by
  decide

/-- Two copies share three words, the second copy answers first. -/
theorem witness_shares :
    ([[(2, 0x00000073#32)], [(1, 0x00812283#32), (0, 0x00000013#32)]] : List (List (Nat × Word))).flatten.Perm
      ((([0x00000013#32, 0x00812283#32, 0x00000073#32] : List Word).zipIdx).map Prod.swap) ∧
    ([(1, .I .LOAD 5 2 2 8), (0, .I .ADDI 0 0 0 0), (2, .Unrecognized 0x73)] :
        List (Nat × Instruction OpcodeId)).Perm
      (([[(2, 0x00000073#32)], [(1, 0x00812283#32), (0, 0x00000013#32)]] : List (List (Nat × Word))).map
        (decodeShare registryRV32I)).flatten := by decide

end Sys2Proof.Tests
end

section
/-! Proofs about the state (spec/10_state.md): a step is `decode` of the present word, delivered; from that, what a step
and a stream of words leave unchanged, and that no earlier decode has an influence (O35). Then the ports (O38). -/

namespace Sys2Proof

/-! ### The immediate operand of a row is the extractor's immediate -/

namespace Machine

@[simp] theorem iOperand_iPattern (w : Word) : iOperand (iPattern w) = iImm w := (iImm_eq w).symm

@[simp] theorem sOperand_sPattern (w : Word) : sOperand (sPattern w) = sImm w := (sImm_eq w).symm

@[simp] theorem bOperand_bPattern (w : Word) : bOperand (bPattern w) = bImm w := (bImm_eq w).symm

@[simp] theorem uOperand_uPattern (w : Word) : uOperand (uPattern w) = uImm w := rfl

@[simp] theorem jOperand_jPattern (w : Word) : jOperand (jPattern w) = jImm w := (jImm_eq w).symm

end Machine

/-! ### `decode`, an equation per answer of the registry -/

theorem decode_of_classify_none {Op : Type} {reg : Registry Op} {w : Word}
    (h : classify reg (opcodeField w) = none) : decode reg w = .Unrecognized w := by
  simp [decode, h]

theorem decode_of_classify_some {Op : Type} {reg : Registry Op} {w : Word} {op : Op} {fmt : FormatKind}
    (h : classify reg (opcodeField w) = some (op, fmt)) : decode reg w = extract fmt op w := by
  simp [decode, h]

namespace Machine

/-! ### A step is `decode`, delivered -/

/-- The ten separate meanings agree with the format multiplexer: a row of R62 delivers what the extractor of its format
cuts out of the word. -/
theorem exec_of_instrOf {b : Opcode7} {op : OpcodeId} {fmt : FormatKind} {w : Word} {i : Instr}
    (hrow : (b, op, fmt) ∈ rowsRV32I) (hi : instrOf op w = some i) (s : State) :
    exec i s = .next (s.deliver (extract fmt op w)) := by
  simp only [rowsRV32I, List.mem_cons, Prod.mk.injEq, List.not_mem_nil, or_false] at hrow
  obtain ⟨-, rfl, rfl⟩ | ⟨-, rfl, rfl⟩ | ⟨-, rfl, rfl⟩ | ⟨-, rfl, rfl⟩ | ⟨-, rfl, rfl⟩ | ⟨-, rfl, rfl⟩ |
    ⟨-, rfl, rfl⟩ | ⟨-, rfl, rfl⟩ | ⟨-, rfl, rfl⟩ | ⟨-, rfl, rfl⟩ := hrow <;> cases hi
  · simp [exec, execLoad, extract, extractI]
  · simp [exec, execMiscMem, extract, extractI]
  · simp [exec, execAddi, extract, extractI]
  · simp [exec, execAuipc, extract, extractU]
  · simp [exec, execStore, extract, extractS]
  · simp [exec, execOp, extract, extractR]
  · simp [exec, execLui, extract, extractU]
  · simp [exec, execBranch, extract, extractB]
  · simp [exec, execJalr, extract, extractI]
  · simp [exec, execJal, extract, extractJ]

theorem step_of_not_wf {s : State} (h : s.registry.wf = false) : step s = .refused .registryIllFormed := by
  simp [step, h]

/-- Under a well-formed registry a step delivers `decode` of the present word, whichever way the word takes through the
decoder. -/
theorem step_of_wf {s : State} (h : s.registry.wf = true) :
    step s = .next (s.deliver (decode s.registry s.word)) := by
  obtain ⟨hwf, -⟩ | ⟨-, i, hd, hs⟩ | ⟨-, hc, hs⟩ | ⟨-, op, fmt, hc, hs⟩ := step_cases s
  · simp [h] at hwf
  · obtain ⟨op, fmt, hc, hdef, hi⟩ := decodeInstr_ok hd
    rw [hs, decode_of_classify_some hc, exec_of_instrOf (format_of_default hdef) hi]
  · rw [hs, decode_of_classify_none hc, State.reportUnrecognized]
  · rw [hs, decode_of_classify_some hc]

/-- Everything a step that answers a next state says. -/
theorem step_eq_next_iff {s t : State} :
    step s = .next t ↔ s.registry.wf = true ∧ t = s.deliver (decode s.registry s.word) := by
  cases hwf : s.registry.wf with
  | false => simp [step_of_not_wf hwf]
  | true => simp [step_of_wf hwf, eq_comm]

/-! ### What a step and a stream depend on and leave unchanged -/

theorem step_next_keeps_registry {s t : State} (h : step s = .next t) : t.registry = s.registry := by
  obtain ⟨-, rfl⟩ := step_eq_next_iff.mp h
  rfl

theorem step_next_keeps_opids {s t : State} (h : step s = .next t) : t.opids = s.opids := by
  obtain ⟨-, rfl⟩ := step_eq_next_iff.mp h
  rfl

/-- A step does not read the outputs: states that agree on the other three fields step alike. -/
theorem step_congr {s s' : State} (hreg : s.registry = s'.registry) (hops : s.opids = s'.opids)
    (hword : s.word = s'.word) : step s = step s' := by
  cases hwf : s.registry.wf with
  | false => rw [step_of_not_wf hwf, step_of_not_wf (hreg ▸ hwf)]
  | true =>
    rw [step_of_wf hwf, step_of_wf (hreg ▸ hwf), hreg, hword]
    exact congrArg _ (State.ext_fields hreg hops hword rfl)

/-- A stream that is decoded to its end consists of one step on its first word and a stream of the others. -/
theorem decodeStream_cons_eq_next {w : Word} {ws : List Word} {s u : State} {vs : List (Instruction OpcodeId)}
    (h : decodeStream (w :: ws) s = .next (u, vs)) :
    ∃ t vs', step (s.present w) = .next t ∧ decodeStream ws t = .next (u, vs') ∧ vs = t.out.toList ++ vs' := by
  rw [decodeStream] at h
  split at h
  · rename_i t hstep
    split at h
    · rename_i u' vs' hrest
      cases h
      exact ⟨t, vs', hstep, hrest, rfl⟩
    · cases h
    · cases h
  · cases h
  · cases h

/-- No stream of words changes the registry or the `opid` codes. -/
theorem decodeStream_frame {ws : List Word} {s t : State} {vs : List (Instruction OpcodeId)}
    (h : decodeStream ws s = .next (t, vs)) : t.registry = s.registry ∧ t.opids = s.opids := by
  induction ws generalizing s vs with
  | nil =>
    cases h
    exact ⟨rfl, rfl⟩
  | cons w ws ih =>
    obtain ⟨m, vs', hstep, hrest, -⟩ := decodeStream_cons_eq_next h
    obtain ⟨hreg, hops⟩ := ih hrest
    exact ⟨by simp [hreg, step_next_keeps_registry hstep], by simp [hops, step_next_keeps_opids hstep]⟩

/-- Settles O35: a step is `decode` of the present word, so it reads no outputs; and a stream keeps all that the next
step does read beside the word presented to it. -/
theorem earlierDecodesHaveNoInfluence : Obligations.EarlierDecodesHaveNoInfluence := by
  refine ⟨?_, fun s s' => step_congr, ?_⟩
  · intro s s' t hreg hword hstep
    obtain ⟨hwf, rfl⟩ := step_eq_next_iff.mp hstep
    rw [step_of_wf (hreg ▸ hwf), hreg, hword]
    rfl
  · intro ws s t vs w hstream
    obtain ⟨hreg, hops⟩ := decodeStream_frame hstream
    exact step_congr (by simp [hreg]) (by simp [hops]) (by simp)

/-! ### The ports -/

/-- The ports of a value whose operation has a code in the enumeration: only the fields its case lacks are left to the
unspecified value. -/
theorem Ports.drive_of_code {Op : Type} [DecidableEq Op] {t : OpidTable Op} {v : Instruction Op} {op : Op}
    {c : BitVec t.width} (hop : v.opcode? = some op) (hc : t.code? op = some c) (u : Ports t.width) (w : Word) :
    Ports.drive t u w v =
      ⟨kindCode v, c, v.rd?.getD u.rd, v.func3?.getD u.func3, v.rs1?.getD u.rs1, v.rs2?.getD u.rs2,
        v.func7?.getD u.func7, v.imm?.getD u.imm, w⟩ := by
  simp [Ports.drive, hop, hc]

/-- Settles O38: in the six cases with an operation the accessors of the case compute to its fields; Unrecognized has
no field and no operation. -/
theorem portsCarryTheFieldsOfTheCase : Obligations.PortsCarryTheFieldsOfTheCase := by
  intro Op _ t u w op c rd f3 rs1 rs2 f7 imm
  refine ⟨fun hc => ?_, rfl⟩
  have hdrive {v : Instruction Op} (hop : v.opcode? = some op) := Ports.drive_of_code hop hc u w
  exact ⟨hdrive rfl, hdrive rfl, hdrive rfl, hdrive rfl, hdrive rfl, hdrive rfl⟩

end Machine
end Sys2Proof
end

section
/-! Proofs about memory (spec/20_memory.md): decoding has no side effect (O36), and the fetch collaborator's byte order in
front of the block (O41). -/

namespace Sys2Proof

/-! ### The bytes of an assembled word -/

/-- The low byte of a concatenation is its last part. -/
theorem extractLsb_lowByte_append (v : BitVec 24) (b : Byte) : (v ++ b).extractLsb 7 0 = b :=
  BitVec.extractLsb'_append_eq_right

/-- The opcode field of a word lies within its low byte. -/
theorem opcodeField_append_byte (v : BitVec 24) (b : Byte) : opcodeField (v ++ b) = b.extractLsb 6 0 :=
  BitVec.extractLsb'_append_eq_of_add_le (by decide)

namespace Machine

/-! ### Decoding again -/

/-- Settles O36: a step only delivers `decode` of the present word, which does not depend on the outputs, and a second
delivery overwrites the first. -/
theorem decodingIsIdempotentWithoutSideEffects : Obligations.DecodingIsIdempotentWithoutSideEffects := by
  intro s t hstep
  obtain ⟨hwf, rfl⟩ := step_eq_next_iff.mp hstep
  refine ⟨State.deliver_registry _ s, State.deliver_opids _ s, State.deliver_word _ s, ?_⟩
  rw [step_of_wf (by simpa using hwf)]
  simp

/-! ### The fetch collaborator -/

/-- A fetch whose four bytes are there delivers the word assembled from them. -/
theorem fetchWord_of_bytes {mem : List Host.Cell} {a : Nat} {b0 b1 b2 b3 : Byte} (h0 : mem.lookup a = some b0)
    (h1 : mem.lookup (a + 1) = some b1) (h2 : mem.lookup (a + 2) = some b2) (h3 : mem.lookup (a + 3) = some b3)
    (order : FetchOrder) : fetchWord order mem a = some (assembleWord order b0 b1 b2 b3) := by
  simp [fetchWord, memByte, h0, h1, h2, h3]

/-- The word a fetch finds is presented to the block. -/
theorem State.fetchFrom_of_fetchWord {order : FetchOrder} {mem : List Host.Cell} {a : Nat} {w : Word}
    (h : fetchWord order mem a = some w) (s : State) : s.fetchFrom order mem a = s.present w := by
  simp [State.fetchFrom, h]

/-- Under a well-formed registry the step after presenting a word delivers `decode` of it, whatever the block held. -/
theorem step_present {s : State} (h : s.registry.wf = true) (w : Word) :
    step (s.present w) = .next { s with word := w, out := some (decode s.registry w) } := by
  rw [step_of_wf (by simpa using h), State.deliver_present]
  simp

/-- Settles O41: the default order is little-endian, so the lowest byte is the last part of the concatenation; and a
fetched word is a presented word, which the next step decodes. -/
theorem fetchedWordIsDecoded : Obligations.FetchedWordIsDecoded := by
  constructor
  · intro mem a b0 b1 b2 b3 h0 h1 h2 h3
    exact ⟨_, fetchWord_of_bytes h0 h1 h2 h3 _, rfl, extractLsb_lowByte_append _ b0, opcodeField_append_byte _ b0⟩
  · intro order mem a w s hwf hfetch
    rw [State.fetchFrom_of_fetchWord hfetch, step_present hwf]

end Machine
end Sys2Proof
end

section
/-! Proofs about the encoding (spec/30_encoding.md): the bits of each immediate (O12), the fields of a word against the
encoder (O5), the values of the immediates (O13), and when a word is Unrecognized (O16). -/

namespace Sys2Proof

/-! ### Every bit of an immediate (R43) -/

theorem getLsbD_iPattern (w : Word) (i : Nat) :
    (iPattern w).getLsbD i = (decide (i < 12) && w.getLsbD (20 + i)) := by
  simp only [iPattern, BitVec.getLsbD_extractLsb]

theorem getLsbD_sPattern (w : Word) (i : Nat) :
    (sPattern w).getLsbD i = (decide (i < 12) && if i < 5 then w.getLsbD (7 + i) else w.getLsbD (20 + i)) := by
  simp only [sPattern, BitVec.getLsbD_append, BitVec.getLsbD_extractLsb]
  grind

theorem getLsbD_bPattern (w : Word) (i : Nat) :
    (bPattern w).getLsbD i = (decide (i < 13) &&
      if i = 0 then false else if i < 5 then w.getLsbD (7 + i) else if i < 11 then w.getLsbD (20 + i)
      else if i = 11 then w.getLsbD 7 else w.getLsbD 31) := by
  simp only [bPattern, BitVec.getLsbD_append, BitVec.getLsbD_extractLsb]
  grind

theorem getLsbD_jPattern (w : Word) (i : Nat) :
    (jPattern w).getLsbD i = (decide (i < 21) &&
      if i = 0 then false else if i < 11 then w.getLsbD (20 + i) else if i = 11 then w.getLsbD 20
      else if i < 20 then w.getLsbD i else w.getLsbD 31) := by
  simp only [jPattern, BitVec.getLsbD_append, BitVec.getLsbD_extractLsb]
  grind

theorem getLsbD_iImm (w : Word) {i : Nat} (hi : i < 32) :
    (iImm w).getLsbD i = if i < 12 then w.getLsbD (20 + i) else w.getLsbD 31 := by
  rw [iImm, getLsbD_signUnit (by decide), getLsbD_iPattern, signBit]
  grind

theorem getLsbD_sImm (w : Word) {i : Nat} (hi : i < 32) :
    (sImm w).getLsbD i =
      if i < 5 then w.getLsbD (7 + i) else if i < 12 then w.getLsbD (20 + i) else w.getLsbD 31 := by
  rw [sImm, getLsbD_signUnit (by decide), getLsbD_sPattern, signBit]
  grind

theorem getLsbD_bImm (w : Word) {i : Nat} (hi : i < 32) :
    (bImm w).getLsbD i =
      if i = 0 then false else if i < 5 then w.getLsbD (7 + i) else if i < 11 then w.getLsbD (20 + i)
      else if i = 11 then w.getLsbD 7 else w.getLsbD 31 := by
  rw [bImm, getLsbD_signUnit (by decide), getLsbD_bPattern, signBit]
  grind

theorem getLsbD_uImm (w : Word) {i : Nat} (hi : i < 32) :
    (uImm w).getLsbD i = if i < 12 then false else w.getLsbD i := by
  simp only [uImm, upperImm, uPattern, BitVec.getLsbD_append, BitVec.getLsbD_extractLsb]
  grind

theorem getLsbD_jImm (w : Word) {i : Nat} (hi : i < 32) :
    (jImm w).getLsbD i =
      if i = 0 then false else if i < 11 then w.getLsbD (20 + i) else if i = 11 then w.getLsbD 20
      else if i < 20 then w.getLsbD i else w.getLsbD 31 := by
  rw [jImm, getLsbD_signUnit (by decide), getLsbD_jPattern, signBit]
  grind

/-- Settles O12: each extractor's immediate is the word's, whose bits are known; every clause picks its row of the
table. -/
theorem immediatesAreAssembledBitByBit : Obligations.ImmediatesAreAssembledBitByBit := by
  intro Op op w
  refine ⟨rfl, ⟨iImm w, rfl, ?_⟩, ⟨sImm w, rfl, ?_⟩, ⟨bImm w, rfl, ?_⟩, ⟨uImm w, rfl, ?_⟩, ⟨jImm w, rfl, ?_⟩⟩
  · grind [getLsbD_iImm]
  · grind [getLsbD_sImm]
  · grind [getLsbD_bImm]
  · grind [getLsbD_uImm]
  · grind [getLsbD_jImm]

/-! ### The sign-extension unit drops no bit of the pattern -/

/-- Within its width the sign-extension unit shows the pattern. -/
theorem getLsbD_signUnit_of_lt {k i : Nat} (hk : k ≤ 32) (hi : i < k) (sign : Bool) (v : BitVec k) :
    (signUnit sign v).getLsbD i = v.getLsbD i := by
  rw [getLsbD_signUnit hk, if_pos hi, decide_eq_true (Nat.lt_of_lt_of_le hi hk), Bool.true_and]

theorem setWidth_signUnit {k : Nat} (hk : k ≤ 32) (sign : Bool) (v : BitVec k) :
    (signUnit sign v).setWidth k = v := by
  apply BitVec.eq_of_getLsbD_eq
  intro i hi
  rw [BitVec.getLsbD_setWidth, getLsbD_signUnit_of_lt hk hi, decide_eq_true hi, Bool.true_and]

theorem extractLsb_signUnit {k hi lo : Nat} (hk : k ≤ 32) (hlo : lo ≤ hi) (hhi : hi < k) (sign : Bool)
    (v : BitVec k) : (signUnit sign v).extractLsb hi lo = v.extractLsb hi lo := by
  apply BitVec.eq_of_getLsbD_eq
  intro i hi'
  rw [BitVec.getLsbD_extractLsb, BitVec.getLsbD_extractLsb, getLsbD_signUnit_of_lt hk (by omega)]

theorem extractLsb_iImm (w : Word) : (iImm w).extractLsb 11 0 = iPattern w :=
  (extractLsb_signUnit (by decide) (by decide) (by decide) _ _).trans BitVec.extractLsb'_eq_self

theorem extractLsb_uImm (w : Word) : (uImm w).extractLsb 31 12 = uPattern w :=
  BitVec.extractLsb'_append_eq_left

/-! ### The groups of a pattern are slices of the word -/

/-- Slices with the same bits are equal. -/
theorem extractLsb'_congr {n m : Nat} {v : BitVec n} {w : BitVec m} {lo lo' len : Nat}
    (h : ∀ i < len, v.getLsbD (lo + i) = w.getLsbD (lo' + i)) : v.extractLsb' lo len = w.extractLsb' lo' len := by
  apply BitVec.eq_of_getLsbD_eq
  intro i hi
  rw [BitVec.getLsbD_extractLsb', BitVec.getLsbD_extractLsb', h i hi]

theorem extractLsb_sPattern_11_5 (w : Word) : (sPattern w).extractLsb 11 5 = w.extractLsb 31 25 :=
  extractLsb'_congr fun i hi => by grind [getLsbD_sPattern]

theorem extractLsb_sPattern_4_0 (w : Word) : (sPattern w).extractLsb 4 0 = w.extractLsb 11 7 :=
  extractLsb'_congr fun i hi => by grind [getLsbD_sPattern]

theorem extractLsb_bPattern_12_12 (w : Word) : (bPattern w).extractLsb 12 12 = w.extractLsb 31 31 :=
  extractLsb'_congr fun i hi => by grind [getLsbD_bPattern]

theorem extractLsb_bPattern_11_11 (w : Word) : (bPattern w).extractLsb 11 11 = w.extractLsb 7 7 :=
  extractLsb'_congr fun i hi => by grind [getLsbD_bPattern]

theorem extractLsb_bPattern_10_5 (w : Word) : (bPattern w).extractLsb 10 5 = w.extractLsb 30 25 :=
  extractLsb'_congr fun i hi => by grind [getLsbD_bPattern]

theorem extractLsb_bPattern_4_1 (w : Word) : (bPattern w).extractLsb 4 1 = w.extractLsb 11 8 :=
  extractLsb'_congr fun i hi => by grind [getLsbD_bPattern]

theorem extractLsb_jPattern_20_20 (w : Word) : (jPattern w).extractLsb 20 20 = w.extractLsb 31 31 :=
  extractLsb'_congr fun i hi => by grind [getLsbD_jPattern]

theorem extractLsb_jPattern_19_12 (w : Word) : (jPattern w).extractLsb 19 12 = w.extractLsb 19 12 :=
  extractLsb'_congr fun i hi => by grind [getLsbD_jPattern]

theorem extractLsb_jPattern_11_11 (w : Word) : (jPattern w).extractLsb 11 11 = w.extractLsb 20 20 :=
  extractLsb'_congr fun i hi => by grind [getLsbD_jPattern]

theorem extractLsb_jPattern_10_1 (w : Word) : (jPattern w).extractLsb 10 1 = w.extractLsb 30 21 :=
  extractLsb'_congr fun i hi => by grind [getLsbD_jPattern]

/-! ### A word is its fields, laid out as R36 to R41 lay them out

Once its fields are written as slices of the word, each layout is a row of adjacent slices, which merge into the whole
word. -/

theorem encodeR_fields (w : Word) :
    encodeR (opcodeField w) (rdField w) (func3Field w) (rs1Field w) (rs2Field w) (func7Field w) = w := by
  simp (disch := rfl) only [encodeR, func7Field, rs2Field, rs1Field, func3Field, rdField, opcodeField,
    BitVec.extractLsb, BitVec.extractLsb'_append_extractLsb'_eq_extractLsb']
  exact BitVec.extractLsb'_eq_self

theorem encodeI_fields (w : Word) :
    encodeI (opcodeField w) (rdField w) (func3Field w) (rs1Field w) (iPattern w) = w := by
  simp (disch := rfl) only [encodeI, iPattern, rs1Field, func3Field, rdField, opcodeField, BitVec.extractLsb,
    BitVec.extractLsb'_append_extractLsb'_eq_extractLsb']
  exact BitVec.extractLsb'_eq_self

theorem encodeS_fields (w : Word) :
    encodeS (opcodeField w) (func3Field w) (rs1Field w) (rs2Field w) (sPattern w) = w := by
  rw [encodeS, extractLsb_sPattern_11_5, extractLsb_sPattern_4_0]
  exact encodeR_fields w

theorem encodeB_fields (w : Word) :
    encodeB (opcodeField w) (func3Field w) (rs1Field w) (rs2Field w) (bPattern w) = w := by
  rw [encodeB, extractLsb_bPattern_12_12, extractLsb_bPattern_10_5, extractLsb_bPattern_4_1, extractLsb_bPattern_11_11]
  simp (disch := rfl) only [rs2Field, rs1Field, func3Field, opcodeField, BitVec.extractLsb,
    BitVec.extractLsb'_append_extractLsb'_eq_extractLsb']
  exact BitVec.extractLsb'_eq_self

theorem encodeU_fields (w : Word) : encodeU (opcodeField w) (rdField w) (uPattern w) = w := by
  simp (disch := rfl) only [encodeU, uPattern, rdField, opcodeField, BitVec.extractLsb,
    BitVec.extractLsb'_append_extractLsb'_eq_extractLsb']
  exact BitVec.extractLsb'_eq_self

theorem encodeJ_fields (w : Word) : encodeJ (opcodeField w) (rdField w) (jPattern w) = w := by
  rw [encodeJ, extractLsb_jPattern_20_20, extractLsb_jPattern_10_1, extractLsb_jPattern_11_11,
    extractLsb_jPattern_19_12]
  simp (disch := rfl) only [rdField, opcodeField, BitVec.extractLsb,
    BitVec.extractLsb'_append_extractLsb'_eq_extractLsb']
  exact BitVec.extractLsb'_eq_self

/-- No extractor drops a bit: its record and the opcode field give the word back (R42). -/
theorem rebuild_extract {Op : Type} (fmt : FormatKind) (op : Op) (w : Word) :
    rebuild (opcodeField w) (extract fmt op w) = w := by
  cases fmt with
  | R => exact encodeR_fields w
  | I => simp [extract, extractI, rebuild, iImm, setWidth_signUnit, encodeI_fields]
  | S => simp [extract, extractS, rebuild, sImm, setWidth_signUnit, encodeS_fields]
  | B => simp [extract, extractB, rebuild, bImm, setWidth_signUnit, encodeB_fields]
  | U => simp only [extract, extractU, rebuild, extractLsb_uImm, encodeU_fields]
  | J => simp [extract, extractJ, rebuild, jImm, setWidth_signUnit, encodeJ_fields]

/-- Settles O5: the extracted fields are what the encoder lays out; and two words of one entry with the same decoded
value are rebuilt from the same data. -/
theorem fieldsPartitionTheWordAndDecodingIsInjective :
    Obligations.FieldsPartitionTheWordAndDecodingIsInjective := by
  constructor
  · intro Op op w
    refine ⟨⟨_, _, _, _, _, rfl, encodeR_fields w⟩, ⟨_, _, _, _, rfl, ?_⟩, ⟨_, _, _, _, rfl, ?_⟩,
      ⟨_, _, _, _, rfl, ?_⟩, ⟨_, _, rfl, ?_⟩, ⟨_, _, rfl, ?_⟩⟩
    · rw [extractLsb_iImm]
      exact encodeI_fields w
    · simp (disch := decide) only [sImm, extractLsb_signUnit]
      exact encodeS_fields w
    · simp (disch := decide) only [bImm, extractLsb_signUnit]
      exact encodeB_fields w
    · rw [extractLsb_uImm]
      exact encodeU_fields w
    · simp (disch := decide) only [jImm, extractLsb_signUnit]
      exact encodeJ_fields w
  · intro Op reg w w' op fmt hc hopc hne heq
    have hopc' : opcodeField w' = opcodeField w := hopc
    have hc' : classify reg (opcodeField w') = some (op, fmt) := hopc' ▸ hc
    rw [decode_of_classify_some hc, decode_of_classify_some hc'] at heq
    apply hne
    calc w = rebuild (opcodeField w) (extract fmt op w) := (rebuild_extract fmt op w).symm
      _ = rebuild (opcodeField w') (extract fmt op w') := by rw [hopc', heq]
      _ = w' := rebuild_extract fmt op w'

/-! ### The encoder puts every pattern where the cut finds it -/

theorem iPattern_encodeI (opc : Opcode7) (rd : RegIndex) (f3 : Func3) (rs1 : RegIndex) (imm : BitVec 12) :
    iPattern (encodeI opc rd f3 rs1 imm) = imm := by
  apply BitVec.eq_of_getLsbD_eq
  intro i hi
  simp only [getLsbD_iPattern, encodeI, BitVec.getLsbD_append]
  grind

theorem sPattern_encodeS (opc : Opcode7) (f3 : Func3) (rs1 rs2 : RegIndex) (imm : BitVec 12) :
    sPattern (encodeS opc f3 rs1 rs2 imm) = imm := by
  apply BitVec.eq_of_getLsbD_eq
  intro i hi
  simp only [getLsbD_sPattern, encodeS, BitVec.getLsbD_append, BitVec.getLsbD_extractLsb]
  grind

/-- The encoding has no bit for bit 0 of a B offset (R39). -/
theorem bPattern_encodeB (opc : Opcode7) (f3 : Func3) (rs1 rs2 : RegIndex) {imm : BitVec 13}
    (h : imm.getLsbD 0 = false) : bPattern (encodeB opc f3 rs1 rs2 imm) = imm := by
  apply BitVec.eq_of_getLsbD_eq
  intro i hi
  simp only [getLsbD_bPattern, encodeB, BitVec.getLsbD_append, BitVec.getLsbD_extractLsb]
  grind

theorem uPattern_encodeU (opc : Opcode7) (rd : RegIndex) (imm : BitVec 20) :
    uPattern (encodeU opc rd imm) = imm := by
  apply BitVec.eq_of_getLsbD_eq
  intro i hi
  simp only [uPattern, encodeU, BitVec.getLsbD_append, BitVec.getLsbD_extractLsb]
  grind

/-- The encoding has no bit for bit 0 of a J offset (R41). -/
theorem jPattern_encodeJ (opc : Opcode7) (rd : RegIndex) {imm : BitVec 21} (h : imm.getLsbD 0 = false) :
    jPattern (encodeJ opc rd imm) = imm := by
  apply BitVec.eq_of_getLsbD_eq
  intro i hi
  simp only [getLsbD_jPattern, encodeJ, BitVec.getLsbD_append, BitVec.getLsbD_extractLsb]
  grind

/-! ### The values of the immediates (R45) -/

theorem toInt_iImm (w : Word) : (iImm w).toInt = (iPattern w).toInt := by
  rw [iImm_eq, BitVec.toInt_signExtend_of_le (by decide)]

theorem toInt_sImm (w : Word) : (sImm w).toInt = (sPattern w).toInt := by
  rw [sImm_eq, BitVec.toInt_signExtend_of_le (by decide)]

theorem toInt_bImm (w : Word) : (bImm w).toInt = (bPattern w).toInt := by
  rw [bImm_eq, BitVec.toInt_signExtend_of_le (by decide)]

theorem toInt_jImm (w : Word) : (jImm w).toInt = (jPattern w).toInt := by
  rw [jImm_eq, BitVec.toInt_signExtend_of_le (by decide)]

theorem getLsbD_zero_append_zero {k : Nat} (v : BitVec k) : (v ++ 0#1).getLsbD 0 = false := by
  rw [BitVec.getLsbD_append]
  rfl

/-- A `k`-bit pattern over `z` zero bits takes exactly the multiples of `2 ^ z` in its range. -/
theorem exists_toInt_append_zero_iff {k : Nat} (hk : 0 < k) (z : Nat) (n : Int) :
    (∃ v : BitVec k, (v ++ 0#z).toInt = n) ↔
      2 ^ z * -2 ^ (k - 1) ≤ n ∧ n ≤ 2 ^ z * (2 ^ (k - 1) - 1) ∧ 2 ^ z ∣ n := by
  have hz : (0 : Int) < 2 ^ z := by positivity
  simp only [BitVec.toInt_append_zero]
  constructor
  · rintro ⟨v, rfl⟩
    exact ⟨Int.mul_le_mul_of_nonneg_left v.le_toInt hz.le, Int.mul_le_mul_of_nonneg_left BitVec.toInt_le hz.le,
      Int.dvd_mul_right _ _⟩
  · rintro ⟨hlo, hhi, m, rfl⟩
    have hlo' := Int.le_of_mul_le_mul_left hlo hz
    have hhi' := Int.le_of_mul_le_mul_left hhi hz
    exact ⟨BitVec.ofInt k m, by rw [BitVec.toInt_ofInt_eq_self hk hlo' (by omega)]⟩

/-- The values of an immediate that shows exactly the `k`-bit patterns over `z` zero bits. -/
theorem exists_toInt_imm_iff {k : Nat} (hk : 0 < k) (z : Nat) {imm : Word → Word}
    (hshow : ∀ w, ∃ v : BitVec k, (v ++ 0#z).toInt = (imm w).toInt)
    (hreach : ∀ v : BitVec k, ∃ w, (imm w).toInt = (v ++ 0#z).toInt) (n : Int) :
    (∃ w, (imm w).toInt = n) ↔ 2 ^ z * -2 ^ (k - 1) ≤ n ∧ n ≤ 2 ^ z * (2 ^ (k - 1) - 1) ∧ 2 ^ z ∣ n := by
  rw [← exists_toInt_append_zero_iff hk]
  constructor
  · rintro ⟨w, rfl⟩
    exact hshow w
  · rintro ⟨v, rfl⟩
    exact hreach v

theorem exists_toInt_iImm_iff (n : Int) : (∃ w, (iImm w).toInt = n) ↔ -2048 ≤ n ∧ n ≤ 2047 := by
  simpa using exists_toInt_imm_iff (k := 12) (by decide) 0 (imm := iImm)
    (fun w => ⟨iPattern w, by rw [toInt_iImm, BitVec.append_zero_width]⟩)
    (fun v => ⟨encodeI 0 0 0 0 v, by rw [toInt_iImm, iPattern_encodeI, BitVec.append_zero_width]⟩) n

theorem exists_toInt_sImm_iff (n : Int) : (∃ w, (sImm w).toInt = n) ↔ -2048 ≤ n ∧ n ≤ 2047 := by
  simpa using exists_toInt_imm_iff (k := 12) (by decide) 0 (imm := sImm)
    (fun w => ⟨sPattern w, by rw [toInt_sImm, BitVec.append_zero_width]⟩)
    (fun v => ⟨encodeS 0 0 0 0 v, by rw [toInt_sImm, sPattern_encodeS, BitVec.append_zero_width]⟩) n

theorem exists_toInt_bImm_iff (n : Int) : (∃ w, (bImm w).toInt = n) ↔ -4096 ≤ n ∧ n ≤ 4094 ∧ 2 ∣ n := by
  simpa using exists_toInt_imm_iff (k := 12) (by decide) 1 (imm := bImm)
    (fun w => ⟨_, (toInt_bImm w).symm⟩)
    (fun v => ⟨encodeB 0 0 0 0 (v ++ 0#1), by
      rw [toInt_bImm, bPattern_encodeB _ _ _ _ (getLsbD_zero_append_zero v)]⟩) n

theorem exists_toInt_jImm_iff (n : Int) :
    (∃ w, (jImm w).toInt = n) ↔ -1048576 ≤ n ∧ n ≤ 1048574 ∧ 2 ∣ n := by
  simpa using exists_toInt_imm_iff (k := 20) (by decide) 1 (imm := jImm)
    (fun w => ⟨_, (toInt_jImm w).symm⟩)
    (fun v => ⟨encodeJ 0 0 (v ++ 0#1), by rw [toInt_jImm, jPattern_encodeJ _ _ (getLsbD_zero_append_zero v)]⟩) n

theorem exists_toInt_uImm_iff (n : Int) :
    (∃ w, (uImm w).toInt = n) ↔ -2147483648 ≤ n ∧ n ≤ 2147479552 ∧ 4096 ∣ n := by
  simpa using exists_toInt_imm_iff (k := 20) (by decide) 12 (imm := uImm)
    (fun w => ⟨uPattern w, rfl⟩)
    (fun v => ⟨encodeU 0 0 v, by rw [uImm, uPattern_encodeU, upperImm]⟩) n

/-! ### An immediate determines its encoded bits -/

theorem iPattern_eq_of_iImm_eq {w w' : Word} (h : iImm w = iImm w') : iPattern w = iPattern w' := by
  rw [← extractLsb_iImm, h, extractLsb_iImm]

theorem sPattern_eq_of_sImm_eq {w w' : Word} (h : sImm w = sImm w') : sPattern w = sPattern w' := by
  simpa [sImm, setWidth_signUnit] using congrArg (BitVec.setWidth 12) h

theorem bPattern_eq_of_bImm_eq {w w' : Word} (h : bImm w = bImm w') : bPattern w = bPattern w' := by
  simpa [bImm, setWidth_signUnit] using congrArg (BitVec.setWidth 13) h

theorem uPattern_eq_of_uImm_eq {w w' : Word} (h : uImm w = uImm w') : uPattern w = uPattern w' := by
  rw [← extractLsb_uImm, h, extractLsb_uImm]

theorem jPattern_eq_of_jImm_eq {w w' : Word} (h : jImm w = jImm w') : jPattern w = jPattern w' := by
  simpa [jImm, setWidth_signUnit] using congrArg (BitVec.setWidth 21) h

/-- The upper group of a B offset in the word. -/
theorem extractLsb_31_25_eq_bPattern (w : Word) :
    w.extractLsb 31 25 = (bPattern w).extractLsb 12 12 ++ (bPattern w).extractLsb 10 5 := by
  rw [extractLsb_bPattern_12_12, extractLsb_bPattern_10_5]
  simp (disch := rfl) only [BitVec.extractLsb, BitVec.extractLsb'_append_extractLsb'_eq_extractLsb']

/-- The lower group of a B offset in the word. -/
theorem extractLsb_11_7_eq_bPattern (w : Word) :
    w.extractLsb 11 7 = (bPattern w).extractLsb 4 1 ++ (bPattern w).extractLsb 11 11 := by
  rw [extractLsb_bPattern_4_1, extractLsb_bPattern_11_11]
  simp (disch := rfl) only [BitVec.extractLsb, BitVec.extractLsb'_append_extractLsb'_eq_extractLsb']

theorem extractLsb_31_12_eq_jPattern (w : Word) :
    w.extractLsb 31 12 = (jPattern w).extractLsb 20 20 ++ (jPattern w).extractLsb 10 1 ++
      (jPattern w).extractLsb 11 11 ++ (jPattern w).extractLsb 19 12 := by
  rw [extractLsb_jPattern_20_20, extractLsb_jPattern_10_1, extractLsb_jPattern_11_11, extractLsb_jPattern_19_12]
  simp (disch := rfl) only [BitVec.extractLsb, BitVec.extractLsb'_append_extractLsb'_eq_extractLsb']

/-- Settles O13: the ranges format by format; and the pattern, which the immediate determines, holds the encoded bits. -/
theorem immediateRangesAreExact : Obligations.ImmediateRangesAreExact := by
  refine ⟨exists_toInt_iImm_iff, exists_toInt_sImm_iff, exists_toInt_bImm_iff, exists_toInt_jImm_iff,
    exists_toInt_uImm_iff, fun _ _ => iPattern_eq_of_iImm_eq, ?_, ?_, ?_, fun _ _ => uPattern_eq_of_uImm_eq⟩
  · intro w w' h
    have hpat := sPattern_eq_of_sImm_eq h
    constructor
    · rw [← extractLsb_sPattern_11_5, hpat, extractLsb_sPattern_11_5]
    · rw [← extractLsb_sPattern_4_0, hpat, extractLsb_sPattern_4_0]
  · intro w w' h
    have hpat := bPattern_eq_of_bImm_eq h
    constructor
    · rw [extractLsb_31_25_eq_bPattern, hpat, ← extractLsb_31_25_eq_bPattern]
    · rw [extractLsb_11_7_eq_bPattern, hpat, ← extractLsb_11_7_eq_bPattern]
  · intro w w' h
    rw [extractLsb_31_12_eq_jPattern, jPattern_eq_of_jImm_eq h, ← extractLsb_31_12_eq_jPattern]

/-! ### Unrecognized (R49, R100) -/

/-- The case of an extracted record is the format that chose the extractor. -/
@[simp] theorem format_extract {Op : Type} (fmt : FormatKind) (op : Op) (w : Word) :
    (extract fmt op w).format = some fmt := by
  cases fmt <;> rfl

@[simp] theorem opcode?_extract {Op : Type} (fmt : FormatKind) (op : Op) (w : Word) :
    (extract fmt op w).opcode? = some op := by
  cases fmt <;> rfl

/-- No extractor answers Unrecognized, so `decode` does so for the registry's answer alone, and with the whole word. -/
theorem decode_eq_unrecognized_iff {Op : Type} {reg : Registry Op} {w raw : Word} :
    decode reg w = .Unrecognized raw ↔ classify reg (opcodeField w) = none ∧ raw = w := by
  cases hc : classify reg (opcodeField w) with
  | none => simp [decode_of_classify_none hc, eq_comm]
  | some e =>
    obtain ⟨op, fmt⟩ := e
    have hne : extract fmt op w ≠ .Unrecognized raw := fun h =>
      nomatch (format_extract fmt op w).symm.trans (congrArg Instruction.format h)
    simp [decode_of_classify_some hc, hne]

/-- Settles O16, by the two answers of the registry. -/
theorem unrecognizedExactlyWhenUnregistered : Obligations.UnrecognizedExactlyWhenUnregistered := by
  intro Op reg w
  refine ⟨decode_eq_unrecognized_iff.trans (and_iff_left rfl), fun raw h => (decode_eq_unrecognized_iff.mp h).1, ?_⟩
  intro op fmt hc
  rw [decode_of_classify_some hc]
  exact ⟨format_extract fmt op w, opcode?_extract fmt op w⟩

end Sys2Proof
end

section
/-! Proofs about the registry (spec/40_opcode_registry.md): the slots of the two written-out registries (O6, O7, O9), and
when a step refuses a registry (O8). -/

namespace Sys2Proof

/-! ### The default registry (R62, R66) -/

/-- Every row of R62 stands in the slot of its opcode value: no earlier row hides it. -/
theorem classify_registryRV32I_of_mem_rows : ∀ row ∈ rowsRV32I, classify registryRV32I row.1 = some row.2 := by
  decide

/-- The default registry is the relation that R62's table writes out. -/
theorem classify_registryRV32I_eq_some_iff {b : Opcode7} {op : OpcodeId} {fmt : FormatKind} :
    classify registryRV32I b = some (op, fmt) ↔ (b, op, fmt) ∈ rowsRV32I :=
  ⟨format_of_default, classify_registryRV32I_of_mem_rows (b, op, fmt)⟩

theorem classify_registryRV32I_eq_none {b : Opcode7} (h : b ∉ rowsRV32I.map Prod.fst) :
    classify registryRV32I b = none := by
  refine Option.eq_none_iff_forall_ne_some.mpr ?_
  rintro ⟨op, fmt⟩ hc
  exact h (List.mem_map_of_mem (classify_registryRV32I_eq_some_iff.mp hc))

/-- No two rows of R62 share an operation. -/
theorem rowsRV32I_operations_nodup : (rowsRV32I.map fun row => row.2.1).Nodup := by decide

/-- Settles O6: each row stands in its slot, and a slot of no row is empty. -/
theorem defaultRegistryHoldsExactlyTheTenRows : Obligations.DefaultRegistryHoldsExactlyTheTenRows := by
  refine ⟨?_, fun b hb => classify_registryRV32I_eq_none hb, rfl⟩
  simpa [rowsRV32I] using classify_registryRV32I_of_mem_rows

/-- Settles O7: two slots with one operation are two rows of R62 with one operation, hence one row. -/
theorem defaultRegistryIsInjectiveAndWellFormed : Obligations.DefaultRegistryIsInjectiveAndWellFormed := by
  refine ⟨?_, ?_, registryRV32I_wf⟩
  · intro a b op f g ha hb
    have hrow : (a, op, f) = (b, op, g) := List.inj_on_of_nodup_map rowsRV32I_operations_nodup
      (classify_registryRV32I_eq_some_iff.mp ha) (classify_registryRV32I_eq_some_iff.mp hb) rfl
    cases hrow
    exact ⟨rfl, rfl⟩
  · intro op hop
    obtain ⟨⟨b, _, f⟩, hrow, rfl⟩ := List.mem_map.mp (show op ∈ rowsRV32I.map fun row => row.2.1 from hop)
    exact ⟨b, f, classify_registryRV32I_eq_some_iff.mpr hrow⟩

/-! ### The alternative registry (R64) -/

theorem classify_registryDoc (b : Opcode7) :
    classify registryDoc b = if b = 0x13#7 then some (.ADDI, .I) else none := by
  rw [registryDoc, classify_ofRows, List.lookup_cons, List.lookup_nil]
  by_cases hb : b = 0x13#7
  · simp [hb]
  · rw [beq_false_of_ne hb, if_neg hb]

theorem decode_registryDoc_of_opImm {w : Word} (h : opcodeField w = 0x13#7) :
    decode registryDoc w = extract .I .ADDI w :=
  decode_of_classify_some (by simp [classify_registryDoc, h])

theorem decode_registryDoc_of_not_opImm {w : Word} (h : opcodeField w ≠ 0x13#7) :
    decode registryDoc w = .Unrecognized w :=
  decode_of_classify_none (by simp [classify_registryDoc, h])

/-! ### The check of R60 -/

/-- A registry fails the check exactly when two slots give one operation two formats. -/
theorem Registry.wf_eq_false_iff {Op : Type} [DecidableEq Op] (reg : Registry Op) :
    reg.wf = false ↔
      ∃ a b op f g, classify reg a = some (op, f) ∧ classify reg b = some (op, g) ∧ f ≠ g := by
  rw [← Bool.not_eq_true, reg.wf_iff]
  push Not
  rfl

namespace Machine

/-- A step refuses for the registry alone, and under one name. -/
theorem step_eq_refused_iff {s : State} {r : Refusal} :
    step s = .refused r ↔ s.registry.wf = false ∧ r = .registryIllFormed := by
  cases hwf : s.registry.wf with
  | false => simp [step_of_not_wf hwf, eq_comm]
  | true => simp [step_of_wf hwf]

/-- Settles O8: a step refuses for a failed check alone, and the check is R60's `wf`. -/
theorem stepRefusesExactlyTheIllFormedRegistries : Obligations.StepRefusesExactlyTheIllFormedRegistries := by
  intro s
  refine ⟨?_, fun r h => (step_eq_refused_iff.mp h).2⟩
  rw [← s.registry.wf_eq_false_iff, step_eq_refused_iff]
  exact and_iff_left rfl

/-- Settles O9: REGISTRY_DOC is well formed, so the step delivers `decode` of the word, which the one entry decides. -/
theorem docRegistryRecognisesOnlyOpImm : Obligations.DocRegistryRecognisesOnlyOpImm := by
  refine ⟨classify_registryDoc, fun s w hreg => ?_⟩
  rw [step_present (hreg ▸ registryDoc_wf) w, hreg]
  constructor
  · intro hopc
    rw [decode_registryDoc_of_opImm hopc, extract, extractI, iImm_eq, iPattern, rdField, func3Field, rs1Field]
  · intro hopc
    rw [decode_registryDoc_of_not_opImm hopc]

end Machine
end Sys2Proof
end

section
/-! Proofs about the format decoder (spec/41_format_decoder.md): `decode` written out as the rules write it (O11), the
sign-extension unit (O14), the invariants of every decoded value (O15), and the unknown opcodes (O27). -/

namespace Sys2Proof

/-! ### decode and the sign-extension unit (R69 to R79) -/

/-- Settles O11, by the registry's answer: every field is cut as the rules cut it, and the immediate that the
sign-extension unit delivers is the sign extension of its pattern. -/
theorem decodeAppliesTheExtractorOfTheEntrysFormat : Obligations.DecodeAppliesTheExtractorOfTheEntrysFormat := by
  intro Op reg w
  rw [← opcodeField]
  cases hc : classify reg (opcodeField w) with
  | none => exact decode_of_classify_none hc
  | some e =>
    obtain ⟨op, fmt⟩ := e
    rw [decode_of_classify_some hc]
    cases fmt with
    | R => rfl
    | I => exact congrArg (Instruction.I op _ _ _) (iImm_eq w)
    | S => exact congrArg (Instruction.S op _ _ _) (sImm_eq w)
    | B => exact congrArg (Instruction.B op _ _ _) (bImm_eq w)
    | U => rfl
    | J => exact congrArg (Instruction.J op _) (jImm_eq w)

/-- Every width the sign-extension unit is built for fits in the word. -/
theorem signUnit_widths_le : ∀ k ∈ [12, 13, 21], k ≤ 32 := by decide

/-- The sign-extension unit, fed with the pattern's top bit, keeps the signed value. -/
theorem toInt_signUnit_msb {k : Nat} (hk : k ≤ 32) (v : BitVec k) : (signUnit v.msb v).toInt = v.toInt := by
  rw [signUnit_msb hk, BitVec.toInt_signExtend_of_le hk]

/-- Settles O14: bit by bit the unit shows the pattern and above it the sign input, so with the top bit as that input it
is the sign extension; and each extractor feeds it with word bit 31, the top bit of its pattern. -/
theorem signUnitKeepsTheRepresentedValue : Obligations.SignUnitKeepsTheRepresentedValue := by
  refine ⟨?_, ?_, ?_, ?_⟩
  · intro k hk sign v i hi
    rw [getLsbD_signUnit (signUnit_widths_le k hk), decide_eq_true hi, Bool.true_and]
  · intro k hk v
    exact ⟨signUnit_msb (signUnit_widths_le k hk) v, toInt_signUnit_msb (signUnit_widths_le k hk) v⟩
  · intro w
    exact ⟨msb_iPattern w, msb_sPattern w, msb_bPattern w, msb_jPattern w⟩
  · intro Op op w
    exact ⟨rfl, rfl, rfl, rfl, rfl⟩

/-! ### The immediate of a decoded value (R81) -/

/-- The immediate of a decoded value is the word's immediate of the value's case; R and Unrecognized have none. -/
theorem imm?_decode_cases {Op : Type} {reg : Registry Op} {w imm : Word} (h : (decode reg w).imm? = some imm) :
    ((decode reg w).format = some .I ∧ imm = iImm w) ∨ ((decode reg w).format = some .S ∧ imm = sImm w) ∨
    ((decode reg w).format = some .B ∧ imm = bImm w) ∨ ((decode reg w).format = some .U ∧ imm = uImm w) ∨
    ((decode reg w).format = some .J ∧ imm = jImm w) := by
  cases hc : classify reg (opcodeField w) with
  | none =>
    rw [decode_of_classify_none hc] at h
    cases h
  | some e =>
    obtain ⟨op, fmt⟩ := e
    rw [decode_of_classify_some hc] at h ⊢
    cases fmt <;> cases h <;> simp

/-- A B or J offset is even. -/
theorem getLsbD_zero_of_imm?_decode {Op : Type} {reg : Registry Op} {w imm : Word}
    (h : (decode reg w).imm? = some imm)
    (hfmt : (decode reg w).format = some .B ∨ (decode reg w).format = some .J) : imm.getLsbD 0 = false := by
  obtain hB | hJ := hfmt
  · obtain rfl : imm = bImm w := by simpa [hB] using imm?_decode_cases h
    exact getLsbD_bImm w (by decide)
  · obtain rfl : imm = jImm w := by simpa [hJ] using imm?_decode_cases h
    exact getLsbD_jImm w (by decide)

/-- The top bit of every immediate is word bit 31 (R44). -/
theorem getLsbD_31_of_imm?_decode {Op : Type} {reg : Registry Op} {w imm : Word}
    (h : (decode reg w).imm? = some imm) : imm.getLsbD 31 = w.getLsbD 31 := by
  obtain ⟨-, rfl⟩ | ⟨-, rfl⟩ | ⟨-, rfl⟩ | ⟨-, rfl⟩ | ⟨-, rfl⟩ := imm?_decode_cases h
  · exact getLsbD_iImm w (by decide)
  · exact getLsbD_sImm w (by decide)
  · exact getLsbD_bImm w (by decide)
  · exact getLsbD_uImm w (by decide)
  · exact getLsbD_jImm w (by decide)

theorem extractLsb_uImm_low (w : Word) : (uImm w).extractLsb 11 0 = 0#12 :=
  BitVec.extractLsb'_append_eq_right

/-- Below its encoded bits a U immediate is 0: its field is the upper 20 bits (R77). -/
theorem extractLsb_low_of_imm?_decode {Op : Type} {reg : Registry Op} {w imm : Word}
    (h : (decode reg w).imm? = some imm) (hfmt : (decode reg w).format = some .U) : imm.extractLsb 11 0 = 0#12 := by
  obtain rfl : imm = uImm w := by simpa [hfmt] using imm?_decode_cases h
  exact extractLsb_uImm_low w

/-- A word read as a signed number is negative exactly when its top bit is 1. -/
theorem toInt_neg_iff_getLsbD_31 (v : Word) : v.toInt < 0 ↔ v.getLsbD 31 = true := by
  rw [← BitVec.msb_eq_getLsbD_last v, BitVec.msb_eq_toInt, decide_eq_true_iff]

/-- Settles O15: the immediate is the word's own one of the decoded format, whose bits are known; an index is in range
by its width, and only the whole word is ever reported. -/
theorem everyDecodedValueMeetsTheFieldInvariants : Obligations.EveryDecodedValueMeetsTheFieldInvariants := by
  intro Op reg w
  refine ⟨fun r _ => r.isLt, fun imm => getLsbD_zero_of_imm?_decode, ?_, fun imm => extractLsb_low_of_imm?_decode,
    fun raw h => (decode_eq_unrecognized_iff.mp h).2⟩
  intro imm h
  have htop := getLsbD_31_of_imm?_decode h
  exact ⟨htop, htop ▸ toInt_neg_iff_getLsbD_31 imm⟩

/-! ### The opcode values left out of the default registry (R65, R95) -/

theorem classify_registryRV32I_eq_none_iff {b : Opcode7} :
    classify registryRV32I b = none ↔ b ∉ rowsRV32I.map Prod.fst := by
  refine ⟨fun hnone hmem => ?_, classify_registryRV32I_eq_none⟩
  obtain ⟨row, hrow, rfl⟩ := List.mem_map.mp hmem
  simp [classify_registryRV32I_of_mem_rows row hrow] at hnone

/-- The 32-bit major opcodes that R65 leaves out of the default registry, in the order of its table. -/
def majorOpcodesLeftOut : List Opcode7 :=
  [0x73, 0x07, 0x27, 0x43, 0x47, 0x4B, 0x4F, 0x53, 0x57, 0x77, 0x2F, 0x1B, 0x3B, 0x0B, 0x2B, 0x5B, 0x7B, 0x6B, 0x1F,
    0x3F, 0x5F, 0x7F]

/-- The two tables of R62 and R65 share out the 128 opcode values. -/
theorem not_mem_rowsRV32I_iff : ∀ b : Opcode7,
    b ∉ rowsRV32I.map Prod.fst ↔ b.extractLsb 1 0 ≠ 0b11#2 ∨ b ∈ majorOpcodesLeftOut := by
  decide

/-- The low two bits of a word lie within its opcode field. -/
theorem extractLsb_opcodeField_1_0 (w : Word) : (opcodeField w).extractLsb 1 0 = w.extractLsb 1 0 :=
  extractLsb'_congr fun i hi => by grind [getLsbD_opcodeField]

/-- The words the default registry does not know are those of R65's table. -/
theorem decode_registryRV32I_eq_unrecognized_iff {w : Word} :
    decode registryRV32I w = .Unrecognized w ↔
      w.extractLsb 1 0 ≠ 0b11#2 ∨ opcodeField w ∈ majorOpcodesLeftOut := by
  rw [decode_eq_unrecognized_iff, and_iff_left rfl, classify_registryRV32I_eq_none_iff, not_mem_rowsRV32I_iff,
    extractLsb_opcodeField_1_0]

namespace Machine

/-- What the step after presenting a word delivers is `decode` of the word, and nothing else. -/
theorem step_present_eq_next_iff {s : State} (h : s.registry.wf = true) {w : Word} {v : Instruction OpcodeId} :
    step (s.present w) = .next { s with word := w, out := some v } ↔ decode s.registry w = v := by
  simp [step_present h]

/-- Settles O27: a step delivers `decode` of the presented word, which is Unrecognized for the registry's answer alone;
R65's table says for which words the default registry answers so. -/
theorem unknownOpcodesAreReportedWithTheWholeWord : Obligations.UnknownOpcodesAreReportedWithTheWholeWord := by
  refine ⟨?_, ?_, ?_, ?_, ?_, ?_⟩
  · intro s w hwf hnone
    exact (step_present_eq_next_iff hwf).mpr (decode_of_classify_none hnone)
  · intro s w hreg
    rw [step_present_eq_next_iff (hreg ▸ registryRV32I_wf), hreg]
    exact decode_registryRV32I_eq_unrecognized_iff
  all_goals exact decode_registryRV32I_eq_unrecognized_iff.mpr (by decide)

end Machine
end Sys2Proof
end

section
/-! Proofs about the decoded entries (spec/42_decoded_entries.md): the words of each row of the opcode table decode to the
row's record, under every well-formed registry that has the row (O21 to O26). -/

namespace Sys2Proof.Machine

/-! ### A word of a registered opcode delivers the record of its entry's format -/

/-- Presenting a word whose opcode value is registered and stepping delivers what the extractor of the entry's format cuts
out of the word (R69, R71); the registry and its codes stay. -/
theorem step_present_of_classify {s : State} {w : Word} {opc : Opcode7} {op : OpcodeId} {fmt : FormatKind}
    (hwf : s.registry.wf = true) (hrow : classify s.registry opc = some (op, fmt)) (hopc : w.extractLsb 6 0 = opc) :
    step (s.present w) = .next { s with word := w, out := some (extract fmt op w) } := by
  have hfield : opcodeField w = opc := hopc
  exact (step_present_eq_next_iff hwf).mpr (decode_of_classify_some (hfield ▸ hrow))

/-! ### I, U, S and R rows -/

/-- Settles O21: the four rows share the I extractor, whose immediate is the sign extension of bits 31:20 and has the
range of R45. -/
theorem iFormatWordsDecodeToTheirRecords : Obligations.IFormatWordsDecodeToTheirRecords := by
  refine ⟨?_, by decide⟩
  intro s w opc op _ hwf hrow hopc
  have himm : (w.extractLsb 31 20).signExtend 32 = iImm w := (iImm_eq w).symm
  rw [himm]
  exact ⟨step_present_of_classify hwf hrow hopc, (exists_toInt_iImm_iff _).mp ⟨w, rfl⟩⟩

/-- Settles O22: the two rows share the U extractor, which extends nothing. -/
theorem uFormatWordsDecodeToTheirRecords : Obligations.UFormatWordsDecodeToTheirRecords := by
  refine ⟨?_, by decide⟩
  intro s w opc op _ hwf hrow hopc
  exact step_present_of_classify hwf hrow hopc

/-- Settles O23: the S extractor's immediate is the sign extension of bits 31:25 over 11:7 and has the range of R45. -/
theorem storeWordsDecodeToTheirRecords : Obligations.StoreWordsDecodeToTheirRecords := by
  refine ⟨?_, by decide⟩
  intro s w hwf hrow hopc
  have himm : (w.extractLsb 31 25 ++ w.extractLsb 11 7).signExtend 32 = sImm w := (sImm_eq w).symm
  rw [himm]
  exact ⟨step_present_of_classify hwf hrow hopc, (exists_toInt_sImm_iff _).mp ⟨w, rfl⟩⟩

/-- Settles O24: the R extractor delivers its five fields raw. -/
theorem opWordsDecodeToTheirRecords : Obligations.OpWordsDecodeToTheirRecords := by
  refine ⟨?_, by decide⟩
  intro s w hwf hrow hopc
  exact step_present_of_classify hwf hrow hopc

/-! ### B and J rows: the offset of the rule is the extractor's immediate, whose bits and range are known -/

/-- Settles O25: the rule's concatenation, sign-extended, is the B extractor's immediate. -/
theorem branchWordsDecodeToTheirRecords : Obligations.BranchWordsDecodeToTheirRecords := by
  refine ⟨?_, by decide⟩
  intro s w imm himm hwf hrow hopc
  obtain rfl : imm = bImm w := himm.trans (bImm_eq w).symm
  obtain ⟨hlo, hhi, -⟩ := (exists_toInt_bImm_iff _).mp ⟨w, rfl⟩
  exact ⟨step_present_of_classify hwf hrow hopc, getLsbD_bImm w (by decide), getLsbD_bImm w (by decide), hlo, hhi⟩

/-- Settles O26: the rule's concatenation, sign-extended, is the J extractor's immediate. -/
theorem jalWordsDecodeToTheirRecords : Obligations.JalWordsDecodeToTheirRecords := by
  refine ⟨?_, by decide⟩
  intro s w imm himm hwf hrow hopc
  obtain rfl : imm = jImm w := himm.trans (jImm_eq w).symm
  obtain ⟨hlo, hhi, -⟩ := (exists_toInt_jImm_iff _).mp ⟨w, rfl⟩
  exact ⟨step_present_of_classify hwf hrow hopc, getLsbD_jImm w (by decide), getLsbD_jImm w (by decide), hlo, hhi⟩

end Sys2Proof.Machine
end

section
/-! Proofs about exceptions (spec/60_exceptions.md): the block has none, and no word stops it (O30). -/

namespace Sys2Proof.Machine

/-- A step delivers a value or refuses the registry: neither is a fault (R97). -/
theorem step_ne_fault (s : State) (f : Fault) : step s ≠ .fault f := by
  cases hwf : s.registry.wf with
  | false => simp [step_of_not_wf hwf]
  | true => simp [step_of_wf hwf]

/-- Whether a step answers a next state depends on the registry alone, not on the word (R60, R97). -/
theorem State.runs_iff (s : State) : s.Runs ↔ s.registry.wf = true := by
  simp [State.Runs, step_eq_next_iff]

/-- Settles O30: a step runs whenever the registry is well formed, presenting a word leaves the registry as it is, and
every instruction settles the outputs on a value. -/
theorem noWordStopsTheBlock : Obligations.NoWordStopsTheBlock := by
  refine ⟨step_ne_fault, ?_, ?_⟩
  · intro s w hwf
    rw [State.runs_iff, State.present_registry]
    exact hwf
  · intro i s
    obtain ⟨v, hexec⟩ := exec_cases i s
    exact ⟨s.deliver v, hexec⟩

end Sys2Proof.Machine
end

section
/-! Proofs about encoding and decoding a row (spec/30_encoding.md, spec/42_decoded_entries.md): the round trip from a word
and back to it (O3, O4), bytes (O42), the round trip from an instruction and back to it (O2), and the spec's words (O1). -/

namespace Sys2Proof

/-! ### From a word, and back to it -/

/-- Settles O4: an unknown opcode gives the whole word back, and no extractor drops a bit. -/
theorem wordIsRebuiltFromItsDecodedValue : Obligations.WordIsRebuiltFromItsDecodedValue := by
  intro Op reg w
  cases hc : classify reg (opcodeField w) with
  | none => rw [decode_of_classify_none hc, rebuild]
  | some e =>
    obtain ⟨op, fmt⟩ := e
    rw [decode_of_classify_some hc]
    exact rebuild_extract fmt op w

/-- The row read from a word of its own opcode is encoded by laying out the fields the word has. -/
theorem encode_of_instrOf {op : OpcodeId} {fmt : FormatKind} {w : Word} {i : Instr}
    (hrow : (opcodeField w, op, fmt) ∈ rowsRV32I) (hi : instrOf op w = some i) : encode i = w := by
  simp only [rowsRV32I, List.mem_cons, Prod.mk.injEq, List.not_mem_nil, or_false] at hrow
  obtain ⟨hopc, rfl, -⟩ | ⟨hopc, rfl, -⟩ | ⟨hopc, rfl, -⟩ | ⟨hopc, rfl, -⟩ | ⟨hopc, rfl, -⟩ | ⟨hopc, rfl, -⟩ |
    ⟨hopc, rfl, -⟩ | ⟨hopc, rfl, -⟩ | ⟨hopc, rfl, -⟩ | ⟨hopc, rfl, -⟩ := hrow <;> cases hi <;> rw [encode, ← hopc]
  · exact encodeI_fields w
  · exact encodeI_fields w
  · exact encodeI_fields w
  · exact encodeU_fields w
  · exact encodeS_fields w
  · exact encodeR_fields w
  · exact encodeU_fields w
  · exact encodeB_fields w
  · exact encodeI_fields w
  · exact encodeJ_fields w

/-- A row read from a word is well formed: the cut of a B or J offset puts a 0 at bit 0. -/
theorem wellFormed_of_instrOf {op : OpcodeId} {w : Word} {i : Instr} (hi : instrOf op w = some i) :
    i.wellFormed = true := by
  cases op <;> cases hi
  case BRANCH | JAL => exact congrArg not (getLsbD_zero_append_zero _)
  all_goals rfl

/-- Settles O3: whatever the registry, a word that is read as a row is that row of R62. -/
theorem encodeOfDecodeIsTheWord : Obligations.EncodeOfDecodeIsTheWord := by
  intro reg w i hd
  obtain ⟨op, fmt, -, hdef, hi⟩ := decodeInstr_ok hd
  exact ⟨encode_of_instrOf (format_of_default hdef) hi, wellFormed_of_instrOf hi⟩

/-! ### From bytes (R25, R27, R34) -/

/-- Four bytes are cut from a word and assembled in one order. -/
theorem decodeBytes_wordBytes_append (order : FetchOrder) (reg : Registry OpcodeId) (w : Word) (rest : List Byte) :
    decodeBytes order reg (wordBytes order w ++ rest) = (decodeInstr reg w).map fun i => (i, rest) := by
  have hword : w.extractLsb 31 24 ++ w.extractLsb 23 16 ++ w.extractLsb 15 8 ++ w.extractLsb 7 0 = w := by
    simp (disch := rfl) only [BitVec.extractLsb, BitVec.extractLsb'_append_extractLsb'_eq_extractLsb']
    exact BitVec.extractLsb'_eq_self
  cases order <;>
  · simp only [wordBytes, List.cons_append, List.nil_append, decodeBytes, assembleWord, hword]
    cases decodeInstr reg w <;> rfl

theorem decodeBytes_of_length_lt (order : FetchOrder) (reg : Registry OpcodeId) {bs : List Byte} (h : bs.length < 4) :
    decodeBytes order reg bs = .error (.truncated bs.length) := by
  match bs with
  | [] | [_] | [_, _] | [_, _, _] => rfl
  | _ :: _ :: _ :: _ :: rest =>
    simp only [List.length_cons] at h
    omega

/-- Settles O42: the bytes of a word assemble to the word, whose reading decides; fewer than four are rejected. -/
theorem decodeTakesExactlyOneWordOfBytes : Obligations.DecodeTakesExactlyOneWordOfBytes := by
  intro order reg
  refine ⟨?_, ?_, fun bs => decodeBytes_of_length_lt order reg⟩
  · intro w i rest hd
    rw [decodeBytes_wordBytes_append, hd]
    rfl
  · intro w e rest hd
    rw [decodeBytes_wordBytes_append, hd]
    rfl

/-- A 32-bit table word is the word of its number. -/
theorem tableWord_32_toNat (w : Word) : tableWord 32 w.toNat = w := by
  apply BitVec.eq_of_toNat_eq
  simpa [tableWord] using w.isLt

/-- The table decoder reads a word as the default registry's decoder does. -/
theorem decodeTableWord_of_decodeInstr {w : Word} {i : Instr} (hd : decodeInstr registryRV32I w = .ok i) :
    decodeTableWord 32 w.toNat = some i := by
  have hbytes := decodeBytes_wordBytes_append Config.fetchOrder registryRV32I w []
  rw [List.append_nil, hd, Except.map] at hbytes
  unfold decodeTableWord
  rw [tableWord_32_toNat, hbytes]

/-! ### Every layout is the R layout with the immediate cut into the fields that the format lacks -/

theorem encodeI_eq_encodeR (opc : Opcode7) (rd : RegIndex) (f3 : Func3) (rs1 : RegIndex) (imm : BitVec 12) :
    encodeI opc rd f3 rs1 imm = encodeR opc rd f3 rs1 (imm.extractLsb 4 0) (imm.extractLsb 11 5) := by
  have himm : imm.extractLsb 11 5 ++ imm.extractLsb 4 0 = imm := by
    simp (disch := rfl) only [BitVec.extractLsb, BitVec.extractLsb'_append_extractLsb'_eq_extractLsb']
    exact BitVec.extractLsb'_eq_self
  rw [encodeI, encodeR, himm]

theorem encodeS_eq_encodeR (opc : Opcode7) (f3 : Func3) (rs1 rs2 : RegIndex) (imm : BitVec 12) :
    encodeS opc f3 rs1 rs2 imm = encodeR opc (imm.extractLsb 4 0) f3 rs1 rs2 (imm.extractLsb 11 5) := rfl

theorem encodeB_eq_encodeR (opc : Opcode7) (f3 : Func3) (rs1 rs2 : RegIndex) (imm : BitVec 13) :
    encodeB opc f3 rs1 rs2 imm =
      encodeR opc (imm.extractLsb 4 1 ++ imm.extractLsb 11 11) f3 rs1 rs2
        (imm.extractLsb 12 12 ++ imm.extractLsb 10 5) := by
  rw [encodeB, encodeR, BitVec.append_assoc']
  rfl

theorem encodeU_eq_encodeR (opc : Opcode7) (rd : RegIndex) (imm : BitVec 20) :
    encodeU opc rd imm =
      encodeR opc rd (imm.extractLsb 2 0) (imm.extractLsb 7 3) (imm.extractLsb 12 8) (imm.extractLsb 19 13) := by
  have himm : imm.extractLsb 19 13 ++ imm.extractLsb 12 8 ++ imm.extractLsb 7 3 ++ imm.extractLsb 2 0 = imm := by
    simp (disch := rfl) only [BitVec.extractLsb, BitVec.extractLsb'_append_extractLsb'_eq_extractLsb']
    exact BitVec.extractLsb'_eq_self
  rw [encodeU, encodeR, himm]

theorem encodeJ_eq_encodeU (opc : Opcode7) (rd : RegIndex) (imm : BitVec 21) :
    encodeJ opc rd imm =
      encodeU opc rd
        (imm.extractLsb 20 20 ++ imm.extractLsb 10 1 ++ imm.extractLsb 11 11 ++ imm.extractLsb 19 12) := rfl

/-! ### The encoder puts every field where the cut finds it -/

/-- The cuts of an R word, each of which first passes over the fields below it. -/
theorem cuts_encodeR (opc : Opcode7) (rd : RegIndex) (f3 : Func3) (rs1 rs2 : RegIndex) (f7 : Func7) :
    rdField (encodeR opc rd f3 rs1 rs2 f7) = rd ∧ func3Field (encodeR opc rd f3 rs1 rs2 f7) = f3 ∧
    rs1Field (encodeR opc rd f3 rs1 rs2 f7) = rs1 ∧ rs2Field (encodeR opc rd f3 rs1 rs2 f7) = rs2 ∧
    func7Field (encodeR opc rd f3 rs1 rs2 f7) = f7 := by
  refine ⟨?_, ?_, ?_, ?_, ?_⟩
  · rw [encodeR, rdField, BitVec.extractLsb]
    rw [BitVec.extractLsb'_append_eq_of_le (by decide)]
    exact BitVec.extractLsb'_append_eq_right
  · rw [encodeR, func3Field, BitVec.extractLsb]
    iterate 2 rw [BitVec.extractLsb'_append_eq_of_le (by decide)]
    exact BitVec.extractLsb'_append_eq_right
  · rw [encodeR, rs1Field, BitVec.extractLsb]
    iterate 3 rw [BitVec.extractLsb'_append_eq_of_le (by decide)]
    exact BitVec.extractLsb'_append_eq_right
  · rw [encodeR, rs2Field, BitVec.extractLsb]
    iterate 4 rw [BitVec.extractLsb'_append_eq_of_le (by decide)]
    exact BitVec.extractLsb'_append_eq_right
  · rw [encodeR, func7Field, BitVec.extractLsb]
    iterate 4 rw [BitVec.extractLsb'_append_eq_of_le (by decide)]
    exact BitVec.extractLsb'_append_eq_left

theorem cuts_encodeI (opc : Opcode7) (rd : RegIndex) (f3 : Func3) (rs1 : RegIndex) (imm : BitVec 12) :
    rdField (encodeI opc rd f3 rs1 imm) = rd ∧ func3Field (encodeI opc rd f3 rs1 imm) = f3 ∧
    rs1Field (encodeI opc rd f3 rs1 imm) = rs1 ∧ iPattern (encodeI opc rd f3 rs1 imm) = imm := by
  refine ⟨?_, ?_, ?_, iPattern_encodeI ..⟩ <;> simp only [encodeI_eq_encodeR, cuts_encodeR]

theorem cuts_encodeS (opc : Opcode7) (f3 : Func3) (rs1 rs2 : RegIndex) (imm : BitVec 12) :
    func3Field (encodeS opc f3 rs1 rs2 imm) = f3 ∧ rs1Field (encodeS opc f3 rs1 rs2 imm) = rs1 ∧
    rs2Field (encodeS opc f3 rs1 rs2 imm) = rs2 ∧ sPattern (encodeS opc f3 rs1 rs2 imm) = imm := by
  refine ⟨?_, ?_, ?_, sPattern_encodeS ..⟩ <;> simp only [encodeS_eq_encodeR, cuts_encodeR]

theorem cuts_encodeB (opc : Opcode7) (f3 : Func3) (rs1 rs2 : RegIndex) {imm : BitVec 13}
    (h : imm.getLsbD 0 = false) :
    func3Field (encodeB opc f3 rs1 rs2 imm) = f3 ∧ rs1Field (encodeB opc f3 rs1 rs2 imm) = rs1 ∧
    rs2Field (encodeB opc f3 rs1 rs2 imm) = rs2 ∧ bPattern (encodeB opc f3 rs1 rs2 imm) = imm := by
  refine ⟨?_, ?_, ?_, bPattern_encodeB _ _ _ _ h⟩ <;> simp only [encodeB_eq_encodeR, cuts_encodeR]

theorem cuts_encodeU (opc : Opcode7) (rd : RegIndex) (imm : BitVec 20) :
    rdField (encodeU opc rd imm) = rd ∧ uPattern (encodeU opc rd imm) = imm :=
  ⟨by simp only [encodeU_eq_encodeR, cuts_encodeR], uPattern_encodeU opc rd imm⟩

theorem cuts_encodeJ (opc : Opcode7) (rd : RegIndex) {imm : BitVec 21} (h : imm.getLsbD 0 = false) :
    rdField (encodeJ opc rd imm) = rd ∧ jPattern (encodeJ opc rd imm) = imm :=
  ⟨by simp only [encodeJ_eq_encodeU, cuts_encodeU], jPattern_encodeJ opc rd h⟩

/-! ### From an instruction, and back to it -/

open Laws.OpcodeBits in
/-- The word of every instruction stands under a row of R62 with the instruction's operation. -/
theorem encode_mem_rows (i : Instr) : ∃ fmt, (opcodeField (encode i), opcodeId i, fmt) ∈ rowsRV32I := by
  cases i with
  | load => exact load ..
  | miscMem => exact miscMem ..
  | addi => exact addi ..
  | auipc => exact auipc ..
  | store => exact store ..
  | op => exact op ..
  | lui => exact lui ..
  | branch => exact branch ..
  | jalr => exact jalr ..
  | jal => exact jal ..

open Laws.OpcodeBits in
/-- The fields cut out of an instruction's word are the instruction's. -/
theorem instrOf_encode {i : Instr} (hwf : i.wellFormed = true) : instrOf (opcodeId i) (encode i) = some i := by
  cases i with
  | load | miscMem | addi | jalr => simp only [opcodeId, encode, instrOf, cuts_encodeI]
  | auipc | lui => simp only [opcodeId, encode, instrOf, cuts_encodeU]
  | store => simp only [opcodeId, encode, instrOf, cuts_encodeS]
  | op => simp only [opcodeId, encode, instrOf, cuts_encodeR]
  | branch _ _ _ imm =>
    have heven : imm.getLsbD 0 = false := by simpa [Instr.wellFormed] using hwf
    simp only [opcodeId, encode, instrOf, cuts_encodeB _ _ _ _ heven]
  | jal _ imm =>
    have heven : imm.getLsbD 0 = false := by simpa [Instr.wellFormed] using hwf
    simp only [opcodeId, encode, instrOf, cuts_encodeJ _ _ heven]

/-- A word under a row of R62 is read as that row. -/
theorem decodeInstr_of_mem_rows {w : Word} {op : OpcodeId} {fmt : FormatKind} {i : Instr}
    (hrow : (opcodeField w, op, fmt) ∈ rowsRV32I) (hi : instrOf op w = some i) :
    decodeInstr registryRV32I w = .ok i := by
  simp [decodeInstr, classify_registryRV32I_eq_some_iff.mpr hrow, hi]

theorem decodeInstr_encode {i : Instr} (hwf : i.wellFormed = true) : decodeInstr registryRV32I (encode i) = .ok i := by
  obtain ⟨fmt, hrow⟩ := encode_mem_rows i
  exact decodeInstr_of_mem_rows hrow (instrOf_encode hwf)

/-- Settles O2: the word's opcode field selects the instruction's row, and every cut finds the field that the encoder
put there. -/
theorem decodeOfEncodeIsTheInstruction : Obligations.DecodeOfEncodeIsTheInstruction := fun _ hwf =>
  ⟨decodeInstr_encode hwf, decodeTableWord_of_decodeInstr (decodeInstr_encode hwf)⟩

/-- Settles O1, by running the table decoder on each of the twelve words. -/
theorem specWordsDecodeToTheirRows : Obligations.SpecWordsDecodeToTheirRows := by
  unfold Obligations.SpecWordsDecodeToTheirRows
  decide

end Sys2Proof
end

section
/-! Proofs about the machine (spec/42_decoded_entries.md, spec/70_reset_and_hazards.md): what the instructions deliver
(O17 to O20), what a step runs and delivers (O28, O29), the state after reset and the invariant (O31 to O33), what
nothing writes (O34), settling (O37), and many words (O43, O44). -/

namespace Sys2Proof.Machine

/-! ### The records of the rows: each meaning delivers its record and nothing else -/

/-- Settles O17. -/
theorem iFormatRowsDeliverTheirRecords : Obligations.IFormatRowsDeliverTheirRecords :=
  fun _ _ _ _ _ => ⟨rfl, rfl, rfl, rfl⟩

/-- Settles O18. -/
theorem uFormatRowsDeliverTheirRecords : Obligations.UFormatRowsDeliverTheirRecords :=
  fun _ _ _ => ⟨rfl, rfl⟩

/-- Settles O19. -/
theorem storeOpAndBranchRowsDeliverTheirRecords : Obligations.StoreOpAndBranchRowsDeliverTheirRecords :=
  fun _ _ _ _ _ _ _ _ => ⟨rfl, rfl, rfl⟩

/-- Settles O20. -/
theorem jalRowDeliversItsRecord : Obligations.JalRowDeliversItsRecord :=
  fun _ _ _ => rfl

/-! ### A step -/

theorem step_of_decodeInstr_ok {s : State} {i : Instr} (hwf : s.registry.wf = true)
    (hd : decodeInstr s.registry s.word = .ok i) : step s = exec i s := by
  simp [step, hwf, hd]

/-- Settles O28: presenting a word puts it on the port and keeps the registry that reads it. -/
theorem stepRunsTheDecodedInstruction : Obligations.StepRunsTheDecodedInstruction := by
  intro s i hwf
  refine ⟨step_of_decodeInstr_ok hwf, fun n w hd => step_of_decodeInstr_ok ?_ ?_⟩
  · rw [State.withFetchWord_registry, hwf]
  · rw [State.withFetchWord_registry, State.withFetchWord_word]
    exact hd

/-- Settles O29: the ways a word takes through the decoder all deliver `decode` of it (`step_of_wf`). -/
theorem stepDeliversDecodeOfTheWord : Obligations.StepDeliversDecodeOfTheWord :=
  fun _ hwf => step_of_wf hwf

/-! ### The invariant (R106) -/

/-- Delivering `decode` of the present word keeps the invariant. -/
theorem State.Inv.deliver_decode {s : State} (h : s.Inv) : (s.deliver (decode s.registry s.word)).Inv := by
  obtain ⟨hwf, hfit, -⟩ := h
  exact ⟨hwf, hfit, fun _ hv => (Option.some.inj hv).symm⟩

theorem State.Inv.step {s t : State} (h : s.Inv) (hstep : step s = .next t) : t.Inv := by
  obtain ⟨-, rfl⟩ := step_eq_next_iff.mp hstep
  exact h.deliver_decode

/-- A new word unsettles the outputs, and of unsettled outputs the invariant says nothing. -/
theorem State.Inv.present {s : State} (h : s.Inv) (w : Word) : (s.present w).Inv := by
  by_cases hw : w = s.word
  · subst hw
    rwa [State.present_self]
  · obtain ⟨hwf, hfit, -⟩ := h
    rw [State.present_of_ne hw]
    exact ⟨hwf, hfit, fun _ hv => nomatch hv⟩

theorem State.elapse_of_le {time : Nat} (h : Config.tDecode ≤ time) (s : State) :
    s.elapse time = s.deliver (decode s.registry s.word) :=
  if_pos h

theorem State.elapse_of_lt {time : Nat} (h : time < Config.tDecode) (s : State) : s.elapse time = s :=
  if_neg (Nat.not_le.mpr h)

theorem State.Inv.elapse {s : State} (h : s.Inv) (time : Nat) : (s.elapse time).Inv := by
  obtain htime | htime := Nat.lt_or_ge time Config.tDecode
  · rwa [State.elapse_of_lt htime]
  · rw [State.elapse_of_le htime]
    exact h.deliver_decode

/-- A fetch presents the word it finds, or nothing. -/
theorem State.Inv.fetchFrom {s : State} (h : s.Inv) (order : FetchOrder) (mem : List Host.Cell) (a : Nat) :
    (s.fetchFrom order mem a).Inv := by
  unfold State.fetchFrom
  split
  · exact h.present _
  · exact h

/-- Settles O31, action by action. -/
theorem outputsFollowTheWordAfterEveryAction : Obligations.OutputsFollowTheWordAfterEveryAction :=
  fun _ h => ⟨fun _ => h.step, h.present, h.elapse, fun n w => h.present (tableWord n w), h.fetchFrom⟩

/-- Settles O32: the default codes are an encoding and cover the default registry. -/
theorem resetMeetsTheInvariant : Obligations.ResetMeetsTheInvariant :=
  ⟨registryRV32I_wf, ⟨opidsRV32I_wf, opidsRV32I_covers_registryRV32I⟩, fun _ hv => (Option.some.inj hv).symm⟩

/-- Settles O33. -/
theorem resetHoldsTheDefaultRegistry : Obligations.ResetHoldsTheDefaultRegistry :=
  ⟨State.reset_registry, State.reset_opids, rfl, State.reset_word⟩

/-! ### What nothing writes (R14, R61) -/

/-- Settles O34: a step and an instruction only deliver a value, and presenting and waiting write no table. -/
theorem nothingWritesTheRegistryOrTheInput : Obligations.NothingWritesTheRegistryOrTheInput := by
  refine ⟨?_, ?_, ?_, ?_, fun ws s t vs => decodeStream_frame⟩
  · intro s t hstep
    obtain ⟨-, rfl⟩ := step_eq_next_iff.mp hstep
    exact ⟨State.deliver_registry _ s, State.deliver_opids _ s, State.deliver_word _ s⟩
  · intro i s t hexec
    obtain ⟨v, hv⟩ := exec_cases i s
    obtain rfl : s.deliver v = t := by simpa [hv] using hexec
    exact ⟨State.deliver_registry v s, State.deliver_opids v s, State.deliver_word v s⟩
  · exact fun s w => ⟨State.present_registry w s, State.present_opids w s⟩
  · exact fun s time => ⟨State.elapse_registry time s, State.elapse_opids time s, State.elapse_word time s⟩

/-! ### Settling (R108) -/

theorem State.ports_of_out {s : State} {v : Instruction OpcodeId} (h : s.out = some v) (u : Ports s.opids.width) :
    s.ports u = Ports.drive s.opids u s.word v := by
  simp [State.ports, h]

theorem State.ports_of_unsettled {s : State} (h : s.out = none) (u : Ports s.opids.width) : s.ports u = u := by
  simp [State.ports, h]

/-- What the outputs are some time after a word was presented. -/
theorem State.out_elapse_present (s : State) (w : Word) (time : Nat) :
    ((s.present w).elapse time).out =
      if Config.tDecode ≤ time then some (decode s.registry w) else if w = s.word then s.out else none := by
  rw [State.elapse_out, State.present_registry, State.present_word, State.present_out]

/-- Settles O37: the ports render the outputs, which are known at every time; and waiting for `T_DECODE` delivers what a
step delivers. -/
theorem outputsSettleWithinTDecode : Obligations.OutputsSettleWithinTDecode := by
  intro s w hwf
  refine ⟨s.out_elapse_present w, ?_, ?_, s.present_self, ?_⟩
  · intro time u htime
    have hout : ((s.present w).elapse time).out = some (decode s.registry w) := by
      rw [State.out_elapse_present, if_pos htime]
    rw [State.ports_of_out hout, State.elapse_word, State.present_word]
  · intro time u htime hw
    apply State.ports_of_unsettled
    rw [State.out_elapse_present, if_neg (Nat.not_le.mpr htime), if_neg hw]
  · intro time htime
    rw [State.elapse_of_le htime]
    exact step_of_wf (by rwa [State.present_registry])

/-! ### Streams of words -/

theorem decodeStream_cons {w : Word} {ws : List Word} {s t u : State} {vs : List (Instruction OpcodeId)}
    (hstep : step (s.present w) = .next t) (hrest : decodeStream ws t = .next (u, vs)) :
    decodeStream (w :: ws) s = .next (u, t.out.toList ++ vs) := by
  simp [decodeStream, hstep, hrest]

/-- Settles O43, by induction on the words: the step on the first one delivers `decode` of it and keeps the registry, so
the others are decoded under the same one. -/
theorem streamOfWordsDecodesWordByWord : Obligations.StreamOfWordsDecodesWordByWord := by
  intro ws
  induction ws with
  | nil => exact fun s _ => ⟨s, rfl, rfl⟩
  | cons w ws ih =>
    intro s hwf
    obtain ⟨u, hrest, hreg⟩ := ih { s with word := w, out := some (decode s.registry w) } hwf
    exact ⟨u, decodeStream_cons (step_present hwf w) hrest, hreg⟩

/-! ### Copies of the block (R31, R105) -/

/-- In a list without a repeated key, looking up the key of an entry finds the entry's value. -/
theorem lookup_eq_some_of_mem {α β : Type} [DecidableEq α] {l : List (α × β)} (hkeys : (l.map Prod.fst).Nodup)
    {k : α} {v : β} (hmem : (k, v) ∈ l) : l.lookup k = some v := by
  obtain ⟨l₁, l₂, rfl⟩ := List.append_of_mem hmem
  refine List.lookup_eq_some_iff.mpr ⟨l₁, l₂, rfl, fun p hp => ?_⟩
  rw [List.map_append, List.map_cons, List.nodup_middle, List.nodup_cons] at hkeys
  have hne : k ≠ p.1 := fun hk => hkeys.1 (by simp [hk, List.mem_map_of_mem hp])
  simpa using hne

/-- Dividing a buffer among copies does not matter to what they decode. -/
theorem flatten_map_decodeShare {Op : Type} (reg : Registry Op) (shares : List (List (Nat × Word))) :
    (shares.map (decodeShare reg)).flatten = decodeShare reg shares.flatten :=
  List.map_flatten.symm

/-- Settles O44: the results are those of one copy for the whole buffer, in some order, with every index once; so the
lookup of an index finds `decode` of the word at its place. -/
theorem sharedDecodingReassemblesInOrder : Obligations.SharedDecodingReassemblesInOrder := by
  intro Op reg ws shares results hshares hresults
  have hperm : results.Perm (decodeShare reg (ws.zipIdx.map Prod.swap)) := by
    rw [flatten_map_decodeShare] at hresults
    exact hresults.trans (hshares.map _)
  have hkeys : (results.map Prod.fst).Nodup := by
    rw [(hperm.map Prod.fst).nodup_iff]
    simp [decodeShare, Function.comp_def, List.nodup_range']
  have hlookup (k : Nat) (hk : k < ws.length) : results.lookup k = some (decode reg ws[k]) := by
    apply lookup_eq_some_of_mem hkeys
    rw [hperm.mem_iff, decodeShare]
    exact List.mem_map.mpr ⟨(k, ws[k]), by simp [List.mem_zipIdx_iff_getElem?, hk], rfl⟩
  apply List.ext_getElem
  · simp [reassemble]
  · intro k hk hk'
    simpa [reassemble] using hlookup k (by simpa using hk')

end Sys2Proof.Machine
end

section
/-! Proofs about the hardware renderings (spec/40_opcode_registry.md R67, spec/10_state.md R22 and R23): the registry as a
table (O10), the ports read back (O39), and the multiplexed hardware (O40). -/

namespace Sys2Proof

/-! ### Codes -/

theorem FormatKind.toNat_code_lt (fmt : FormatKind) : fmt.code.toNat < 6 := by
  cases fmt <;> decide

/-- The two codes above those of the formats are 6 and 7. -/
theorem FormatKind.code_ne_of_le {c : BitVec 3} (h : 6 ≤ c.toNat) (fmt : FormatKind) : fmt.code ≠ c := by
  rintro rfl
  exact Nat.not_lt.mpr h fmt.toNat_code_lt

/-- Every code of the default enumeration is below 10 (R67). -/
theorem OpidTable.toNat_lt_of_code? {t : OpidTable OpcodeId} (ht : t = opidsRV32I) {op : OpcodeId}
    {c : BitVec t.width} (h : t.code? op = some c) : c.toNat < 10 := by
  subst ht
  have hall : ∀ p ∈ opidsRV32I.codes, p.2.toNat < 10 := by decide
  obtain ⟨l₁, l₂, hcodes, -⟩ := List.lookup_eq_some_iff.mp h
  exact hall (op, c) (hcodes ▸ List.mem_append_right l₁ List.mem_cons_self)

namespace Machine

@[simp] theorem formatOf_code (fmt : FormatKind) : formatOf fmt.code = some fmt := by
  cases fmt <;> rfl

/-! ### The registry as a hardware table -/

section
variable {Op : Type} [DecidableEq Op] {t : OpidTable Op} {reg : Registry Op}

/-- The row of an operation that has a code. -/
theorem RomRow.ofEntry_of_code {op : Op} {c : BitVec t.width} (hc : t.code? op = some c)
    (junk : BitVec t.width × BitVec 3) (fmt : FormatKind) :
    RomRow.ofEntry t junk (some (op, fmt)) = ⟨true, c, fmt.code⟩ := by
  simp [RomRow.ofEntry, hc]

/-- A row of the table is the row of the slot's entry. -/
theorem Rom.getElem_rows_ofRegistry (junk : Vector (BitVec t.width × BitVec 3) 128) (b : Opcode7) :
    (Rom.ofRegistry t junk reg).rows[b.toNat]'b.isLt =
      RomRow.ofEntry t (junk[b.toNat]'b.isLt) (classify reg b) := by
  simp [Rom.ofRegistry, classify]

/-- The table reads back as the registry: an absent row is `none`, and a present row holds codes that name its entry. -/
theorem Rom.lookup_ofRegistry (hwf : t.wf = true) (hcov : t.covers reg = true)
    (junk : Vector (BitVec t.width × BitVec 3) 128) (b : Opcode7) :
    (Rom.ofRegistry t junk reg).lookup t b = .ok (classify reg b) := by
  rw [Rom.lookup, Rom.getElem_rows_ofRegistry]
  cases he : classify reg b with
  | none => rfl
  | some e =>
    obtain ⟨op, fmt⟩ := e
    obtain ⟨c, hc⟩ := OpidTable.code?_of_covers hcov he
    simp [RomRow.ofEntry_of_code hc, RomRow.read, OpidTable.op?_of_code? hwf hc]

/-- A present row holds a code of the enumeration and the code of a format. -/
theorem Rom.row_of_present (hcov : t.covers reg = true) {junk : Vector (BitVec t.width × BitVec 3) 128} {k : Nat}
    (hk : k < 128) (hp : (Rom.ofRegistry t junk reg).rows[k].present = true) :
    ∃ op c, ∃ fmt : FormatKind, t.code? op = some c ∧ (Rom.ofRegistry t junk reg).rows[k] = ⟨true, c, fmt.code⟩ := by
  have hrow := Rom.getElem_rows_ofRegistry (reg := reg) junk (BitVec.ofNatLT k hk)
  simp only [BitVec.toNat_ofNatLT] at hrow
  rw [hrow] at hp ⊢
  cases he : classify reg (BitVec.ofNatLT k hk) with
  | none =>
    rw [he] at hp
    cases hp
  | some e =>
    obtain ⟨op, fmt⟩ := e
    obtain ⟨c, hc⟩ := OpidTable.code?_of_covers hcov he
    exact ⟨op, c, fmt, hc, RomRow.ofEntry_of_code hc _ fmt⟩

end

/-- Settles O10: the lookup and the present rows of any table, then the codes of the default enumeration. -/
theorem romTableReadsBackTheRegistry : Obligations.RomTableReadsBackTheRegistry := by
  refine ⟨?_, ?_⟩
  · intro Op _ t junk reg hwf hcov
    refine ⟨Rom.lookup_ofRegistry hwf hcov junk, fun k hk hp => ?_⟩
    obtain ⟨op, c, fmt, hc, hrow⟩ := Rom.row_of_present hcov hk hp
    rw [hrow]
    exact ⟨⟨op, hc⟩, fmt.toNat_code_lt⟩
  · intro junk reg hcov k hk hp
    obtain ⟨op, c, fmt, hc, hrow⟩ := Rom.row_of_present hcov hk hp
    rw [hrow]
    exact OpidTable.toNat_lt_of_code? rfl hc

/-! ### The multiplexed hardware (R71, R80) -/

/-- On the registry's own entry the multiplexers select, port by port, what the extractor of the entry's format cuts. -/
theorem hardwarePorts_classify {Op : Type} [DecidableEq Op] (t : OpidTable Op) (u : Ports t.width) (reg : Registry Op)
    (w : Word) : hardwarePorts t u (classify reg (opcodeField w)) w = Ports.drive t u w (decode reg w) := by
  cases hc : classify reg (opcodeField w) with
  | none =>
    rw [decode_of_classify_none hc]
    rfl
  | some e =>
    obtain ⟨op, fmt⟩ := e
    rw [decode_of_classify_some hc]
    cases fmt <;> rfl

/-- Settles O40: the table's answer is the registry's entry. -/
theorem hardwareMultiplexersDriveTheDecodedValue : Obligations.HardwareMultiplexersDriveTheDecodedValue := by
  intro Op _ t u junk reg w entry hwf hcov hlookup
  rw [Rom.lookup_ofRegistry hwf hcov] at hlookup
  obtain rfl : classify reg (opcodeField w) = entry := Except.ok.inj hlookup
  exact hardwarePorts_classify t u reg w

/-! ### The ports read back (R22, R23) -/

@[simp] theorem kindCode_extract {Op : Type} (fmt : FormatKind) (op : Op) (w : Word) :
    kindCode (extract fmt op w) = fmt.code := by
  simp [kindCode]

theorem kindCode_ne_six {Op : Type} (v : Instruction Op) : kindCode v ≠ 6 := by
  unfold kindCode
  cases v.format with
  | none => decide
  | some fmt => exact fmt.code_ne_of_le (by decide)

/-- The ports that the format of a decoded value makes meaningful carry its fields. -/
theorem Ports.readRecord_drive_extract {Op : Type} [DecidableEq Op] (t : OpidTable Op) (u : Ports t.width) (w : Word)
    (op : Op) (fmt : FormatKind) : (Ports.drive t u w (extract fmt op w)).readRecord op fmt = extract fmt op w := by
  cases fmt <;> rfl

section
variable {Op : Type} [DecidableEq Op] {t : OpidTable Op} {reg : Registry Op}

theorem Ports.read_drive_decode (hwf : t.wf = true) (hcov : t.covers reg = true) (u : Ports t.width) (w : Word) :
    (Ports.drive t u w (decode reg w)).read t = .ok (decode reg w) := by
  cases he : classify reg (opcodeField w) with
  | none =>
    rw [decode_of_classify_none he]
    rfl
  | some e =>
    obtain ⟨op, fmt⟩ := e
    obtain ⟨c, hc⟩ := OpidTable.code?_of_covers hcov he
    rw [decode_of_classify_some he]
    have hkind : (Ports.drive t u w (extract fmt op w)).kind = fmt.code := kindCode_extract fmt op w
    have hopid : (Ports.drive t u w (extract fmt op w)).opid = c := by simp [Ports.drive, hc]
    have hknown : fmt.code ≠ 7 := fmt.code_ne_of_le (by decide)
    simp only [Ports.read, hkind, if_neg hknown, formatOf_code, hopid, OpidTable.op?_of_code? hwf hc,
      Ports.readRecord_drive_extract]

/-- In a recognised case `opid` carries a code of the enumeration. -/
theorem Ports.code_of_drive_decode (hcov : t.covers reg = true) {u : Ports t.width} {w : Word}
    (hkind : (Ports.drive t u w (decode reg w)).kind ≠ 7) :
    ∃ op, t.code? op = some (Ports.drive t u w (decode reg w)).opid := by
  cases he : classify reg (opcodeField w) with
  | none =>
    rw [decode_of_classify_none he] at hkind
    exact absurd rfl hkind
  | some e =>
    obtain ⟨op, fmt⟩ := e
    obtain ⟨c, hc⟩ := OpidTable.code?_of_covers hcov he
    exact ⟨op, by simp [Ports.drive, decode_of_classify_some he, hc]⟩

end

/-- Settles O39: the ports after a step are driven with `decode` of the word. -/
theorem portsReadBackTheDecodedValue : Obligations.PortsReadBackTheDecodedValue := by
  intro s t u hfit hstep
  obtain ⟨hwf, hcov⟩ := hfit
  obtain ⟨-, rfl⟩ := step_eq_next_iff.mp hstep
  rw [State.ports_of_out (State.deliver_out _ s)]
  refine ⟨Ports.read_drive_decode hwf hcov u s.word, kindCode_ne_six _, rfl,
    Ports.code_of_drive_decode (u := u) hcov, fun hops hkind => ?_⟩
  obtain ⟨op, hc⟩ := Ports.code_of_drive_decode (u := u) hcov hkind
  exact OpidTable.toNat_lt_of_code? hops hc

end Machine
end Sys2Proof
end
